-- ==== Sys2Proof/Word.lean ====
section
/-! DEFINITION. The value types of 00_scope.md R11 and R12: `u64` and `u8`. Every `+` on `Word` is addition
modulo 2^64, `^^^` is bitwise XOR, `<<<` and `>>>` are the logical shifts (R12); BitVec gives exactly these. -/

namespace Sys2Proof

/-- `u64` (R11): a state word, a seed, a data word, an output word. -/
abbrev Word := BitVec 64

/-- `u8` (R11): one message byte. -/
abbrev Byte := BitVec 8

end Sys2Proof
end

