-- ==== Sys2Proof/Config.lean ====
section
/-! DEFINITION. What is fixed for one machine: the algorithm's parameters (00_scope.md R8), the hardware's
parameters (R9), and the one parameter the spec leaves OPEN that a rule reads, `H32_SEED_MODE` (R182). -/

namespace Sys2Proof

/-- The two values of `H32_SEED_MODE` (42_digest_formatter.md R182). -/
inductive SeedMode where
  /-- `FULL64`: the 64-bit seed1 is replicated whole. -/
  | full64
  /-- `LOW32`: only `seed1[31:0]` is replicated. -/
  | low32
  deriving DecidableEq, Repr, Inhabited

namespace Config

/-- `BLOCK`, in bytes (R8). -/
abbrev block : Nat := 96

/-- `THRESH`, in bytes (R8): a message of this length or more takes the long path. -/
abbrev thresh : Nat := 192

/-- `BEAT_BYTES` (R9): the most bytes one UPDATE carries. -/
abbrev beatBytes : Nat := 8

/-- The largest value of `len` (R9 `LEN_WIDTH`, R24). -/
abbrev maxLen : Nat := 2 ^ 64 - 1

/-- `C` (R8), the reference's `sc_const`. Mark: TESTED through the short path only (log entry 5). -/
def constC : Word := 0xDEADBEEFDEADBEEF#64

/-- `H32_SEED_MODE` (R9, R182, D11): OPEN in the spec, "a model takes it as an argument". It has no body here,
so a statement about a width-32 digest holds for both values or names the one it speaks of (log entry 4). -/
opaque h32SeedMode : SeedMode

end Config

end Sys2Proof
end

