-- ==== Sys2Proof/Machine/Bytes.lean ====
section
/-! DEFINITION. Byte sequences and byte order (00_scope.md R14, 20_memory.md R53). -/

namespace Sys2Proof.Machine

/-- `M[a..b)` (R14): the bytes `a` up to but not including `b`. -/
def slice (M : List Byte) (a b : Nat) : List Byte := (M.drop a).take (b - a)

/-- `zeros(n)` (R14). -/
def zeros (n : Nat) : List Byte := List.replicate n 0#8

/-- `LE64` (R14): the first byte is the least significant. On eight bytes it is the rule's sum
`b0 + b1*2^8 + ... + b7*2^56`. -/
def le64 : List Byte → Word
  | [] => 0#64
  | b :: bs => b.setWidth 64 + (le64 bs <<< 8)

/-- The eight bytes of a word, least significant first: the bytes `B` with `LE64(B) = w`. -/
def le64Bytes (w : Word) : List Byte := (List.range 8).map fun j => w.extractLsb' (8 * j) 8

/-- Word `i` of `words(B)` (R14): `LE64(B[8i..8i+8))`. -/
def wordAt (B : List Byte) (i : Nat) : Word := le64 (slice B (8 * i) (8 * i + 8))

/-- `words(B)` of a block of 96 bytes. -/
def blockWords (B : List Byte) : Vector Word 12 :=
  #v[wordAt B 0, wordAt B 1, wordAt B 2, wordAt B 3, wordAt B 4, wordAt B 5,
     wordAt B 6, wordAt B 7, wordAt B 8, wordAt B 9, wordAt B 10, wordAt B 11]

end Sys2Proof.Machine
end

