-- ==== Sys2Proof/Syntax.lean ====
section
/-! DEFINITION. The instructions: one constructor per row of spec/opcode_table.json. An instruction of this
hardware is a transaction a host sends (00_scope.md R17 "Command"; the read port's `rd` beside it). -/

namespace Sys2Proof

/-- The four commands and the read. A command carries the whole of its two operands, the ones the engine
ignores too (30_encoding.md R76), so that "an ignored operand changes nothing" can be said (log entry 9). -/
inductive Instr where
  /-- NOP, 41_stream_buffer.md R141. Both operands are ignored. -/
  | nop (opa opb : Word)
  /-- INIT, R142: the width code `W`, all four values (11 is refused at execution, R77), seed1, seed2. -/
  | init (w : BitVec 2) (opa opb : Word)
  /-- UPDATE, R143: the byte count `NB` and the beat. `OPB` is ignored. -/
  | update (nb : BitVec 4) (opa opb : Word)
  /-- FINAL, R147. Both operands are ignored. -/
  | final (opa opb : Word)
  /-- RD, R150: a read-port transaction with selector `SEL`. -/
  | rd (sel : BitVec 3)
  deriving DecidableEq, Repr

end Sys2Proof
end

