-- ==== Sys2Proof/WellFormed.lean ====
section
/-! DEFINITION. Which terms of `Instr` some transaction encodes. -/

namespace Sys2Proof

/-- The check of each form: the only field with values no encoding admits is `NB`, legal from 0 to 8
(30_encoding.md R74). `W = 11` is an encoding the decoder yields (R77) and INIT then refuses. -/
def Instr.wellFormed : Instr → Bool
  | .nop _ _ => true
  | .init _ _ _ => true
  | .update nb _ _ => decide (nb.toNat ≤ Config.beatBytes)
  | .final _ _ => true
  | .rd _ => true

end Sys2Proof
end

