-- ==== Sys2Proof/Decode.lean ====
section
/-! DEFINITION. The encodings of 30_encoding.md: the two ports' transactions, the decoder of R77, total on every
transaction, and the encoder written from the tables of R71 to R75. -/

namespace Sys2Proof

/-- One transaction on a port (20_memory.md R51, R58; 30_encoding.md R70, R81): a command of three fields
accepted together, or a read that names a selector. -/
inductive Transaction where
  | command (cmd : BitVec 32) (opa opb : Word)
  | read (sel : BitVec 3)
  deriving DecidableEq, Repr

/-- Why the decoder refuses a command word: the three kinds of R78, each refused with `IllegalCommand`. -/
inductive DecodeError where
  /-- `OP` from 0100 to 1111 (R72, R78). -/
  | reservedOpcode
  /-- A `CMD` bit outside the fields its opcode uses is set (R75, R78). -/
  | reservedBits
  /-- UPDATE with `NB` from 9 to 15 (R74, R78). -/
  | byteCount
  deriving DecidableEq, Repr

/-- `v[hi:lo]` (00_scope.md R10) of a command word. -/
def cmdField (cmd : BitVec 32) (hi lo : Nat) : BitVec (hi - lo + 1) := cmd.extractLsb hi lo

/-- `decode(CMD)` of R77, line by line, with the operands beside it. -/
def decodeCommand (cmd : BitVec 32) (opa opb : Word) : Except DecodeError Instr :=
  if cmdField cmd 3 0 = 0b0000#4 then
    if cmdField cmd 31 4 ≠ 0#28 then .error .reservedBits else .ok (.nop opa opb)
  else if cmdField cmd 3 0 = 0b0001#4 then
    if cmdField cmd 31 6 ≠ 0#26 then .error .reservedBits else .ok (.init (cmdField cmd 5 4) opa opb)
  else if cmdField cmd 3 0 = 0b0010#4 then
    if cmdField cmd 31 12 ≠ 0#20 ∨ cmdField cmd 7 4 ≠ 0#4 then .error .reservedBits
    else if Config.beatBytes < (cmdField cmd 11 8).toNat then .error .byteCount
    else .ok (.update (cmdField cmd 11 8) opa opb)
  else if cmdField cmd 3 0 = 0b0011#4 then
    if cmdField cmd 31 4 ≠ 0#28 then .error .reservedBits else .ok (.final opa opb)
  else .error .reservedOpcode

/-- The decoder on a transaction of either port: a read needs no decoding beyond its selector (R81), and every
selector is legal (20_memory.md R60). -/
def decode : Transaction → Except DecodeError Instr
  | .command cmd opa opb => decodeCommand cmd opa opb
  | .read sel => .ok (.rd sel)

/-- The command word of an instruction (R75's `match` values with the fields of R71 shifted into place, as the
assembler table R83 writes them); a read has none. -/
def commandWord : Instr → BitVec 32
  | .nop _ _ => 0x00000000#32
  | .init w _ _ => 0x00000001#32 ||| (w.setWidth 32 <<< 4)
  | .update nb _ _ => 0x00000002#32 ||| (nb.setWidth 32 <<< 8)
  | .final _ _ => 0x00000003#32
  | .rd _ => 0#32

/-- The transaction that carries an instruction. -/
def encode : Instr → Transaction
  | .nop opa opb => .command (commandWord (.nop opa opb)) opa opb
  | .init w opa opb => .command (commandWord (.init w opa opb)) opa opb
  | .update nb opa opb => .command (commandWord (.update nb opa opb)) opa opb
  | .final opa opb => .command (commandWord (.final opa opb)) opa opb
  | .rd sel => .read sel

/-- The transaction whose bits are `w` of width `nbits`, numbered as spec/opcode_table.json numbers them. The table's
rows are of two widths: a read's 3 selector bits, laid out in one byte, and a command's 32. A command's operands
follow its first word: `OPA` is bits 95 to 32, `OPB` bits 159 to 96 (DESIGN CHOICE, log entry 8). -/
def transactionOfBits (nbits w : Nat) : Transaction :=
  if nbits ≤ 8 then .read (BitVec.ofNat 3 w)
  else
    let v := w % 2 ^ nbits
    .command (BitVec.ofNat 32 v) (BitVec.ofNat 64 (v / 2 ^ 32)) (BitVec.ofNat 64 (v / 2 ^ 96))

/-- The instruction the decoder reads from an instruction whose bits are `w`. -/
def decodeTableWord (nbits w : Nat) : Option Instr :=
  match decode (transactionOfBits nbits w) with
  | .ok i => some i
  | .error _ => none

end Sys2Proof
end

