-- ==== Sys2Proof/Machine/State.lean ====
section
/-! DEFINITION. The state of one engine (10_state.md), as plain data, its value right after reset (R40), and the
two types of a step's other outcomes. -/

namespace Sys2Proof.Machine

/-- The lifecycle state `lc` (10_state.md R25). The code 11 is never held (log entry 11). -/
inductive Lifecycle where
  /-- `00`: no INIT since reset. -/
  | uninit
  /-- `01`: INIT done, no FINAL since. -/
  | active
  /-- `10`: FINAL done since the last INIT. -/
  | finalized
  deriving DecidableEq, Repr

/-- The digest width `wsel` (R26). The code 11 is never held (log entry 11). -/
inductive Width where
  /-- `00`: 32 bits. -/
  | w32
  /-- `01`: 64 bits. -/
  | w64
  /-- `10`: 128 bits. -/
  | w128
  deriving DecidableEq, Repr

/-- The result codes of `err` (60_exceptions.md R201). Codes 5 to 15 are never written (log entry 11). -/
inductive ErrCode where
  /-- 0 `OK`: the last command succeeded. -/
  | ok
  /-- 1 `InvalidLifecycleUse`: UPDATE or FINAL while `lc` is not `ACTIVE`. -/
  | invalidLifecycleUse
  /-- 2 `InvalidWidth`: INIT with `W = 11`. -/
  | invalidWidth
  /-- 3 `IllegalCommand`: a command word the decoder refuses. -/
  | illegalCommand
  /-- 4 `LengthOverflow`: UPDATE with `len + NB > 2^64 - 1`. -/
  | lengthOverflow
  deriving DecidableEq, Repr

/-- What the outside world can do to the engine between two steps: have a transaction accepted on a port
(20_memory.md R51), or assert reset, with at most one transaction then in execution or not yet accepted. A command there is
abandoned or lost (70_reset_and_hazards.md R230, R231; log entry 6). A read there is dropped too and returns no value: R231
speaks of commands only, so for a read this is the model's own choice (DESIGN CHOICE, log entry 19). -/
inductive HostEvent where
  | port (t : Transaction)
  | reset (inFlight : Option Transaction)
  deriving DecidableEq, Repr

/-- The state of R20 under the spec's own names, and the two fields of the model's own. -/
structure State where
  /-- `h[0..11]`, the mixing state words (R21, R22). -/
  h      : Vector Word 12
  /-- `buf[0..191]`, the pending-byte buffer (R23). -/
  buf    : Vector Byte 192
  /-- `len`, the message bytes taken since INIT (R24). -/
  len    : Word
  /-- `lc` (R25). -/
  lc     : Lifecycle
  /-- `wsel` (R26). -/
  wsel   : Width
  /-- `dig0`, the first digest word (R28). -/
  dig0   : Word
  /-- `dig1`, the second digest word (R28). -/
  dig1   : Word
  /-- `dvalid` (R29). -/
  dvalid : Bool
  /-- `err`, the result code of the last command (R30). -/
  err    : ErrCode
  /-- `sticky`, set when any command has failed since reset (R31). -/
  sticky : Bool
  /-- The model's own: the host's sequence still to come, next event first (log entry 1). -/
  inbox  : List HostEvent
  /-- The model's own: the values the read port has returned, oldest first (R241; log entry 2). -/
  reads  : List Word
  deriving DecidableEq, Repr

/-- Why the machine would stop. No constructor: "No error is fatal" (60_exceptions.md R200) and "Every command
ends" (70_reset_and_hazards.md R240), so nobody raises a fault, and that is safe (log entry 18). -/
inductive Fault where
  deriving DecidableEq, Repr

/-- Instructions without a meaning. -/
inductive Refusal where
  /-- The host's name for an arm of `exec` not modelled yet; no arm raises it in this model. Safe. -/
  | notModelled (mnemonic : String)
  deriving DecidableEq, Repr

/-- Right after reset (R40, 70_reset_and_hazards.md R230). `h` and `buf` are "unspecified: the model may hold any
value"; the model holds 0 (DESIGN CHOICE, log entry 3). No event is waiting and no read has returned. -/
def State.reset : State where
  h := Vector.replicate 12 0#64
  buf := Vector.replicate 192 0#8
  len := 0#64
  lc := .uninit
  wsel := .w128
  dig0 := 0#64
  dig1 := 0#64
  dvalid := false
  err := .ok
  sticky := false
  inbox := []
  reads := []

end Sys2Proof.Machine
end

