-- ==== Sys2Proof/Machine/DigestFormatter.lean ====
section
/-! DEFINITION. The DigestFormatter (42_digest_formatter.md): seed selection at INIT, output selection at FINAL, and
the digest as a byte string. -/

namespace Sys2Proof.Machine

/-- `zext_64(v[31:0])` (00_scope.md R11). -/
def low32 (v : Word) : Word := (v.setWidth 32).setWidth 64

/-- `SeedSelect(W, a, b)` (R181), with `H32_SEED_MODE` as its first argument (R182). -/
def seedSelect (mode : SeedMode) (w : Width) (a b : Word) : Word × Word :=
  match w with
  | .w128 => (a, b)
  | .w64 => (a, a)
  | .w32 =>
    match mode with
    | .full64 => (a, a)
    | .low32 => (low32 a, low32 a)

/-- `Format(wsel, x1, x2)` (R183). -/
def formatDigest (w : Width) (x : Word × Word) : Word × Word :=
  match w with
  | .w128 => (x.1, x.2)
  | .w64 => (x.1, 0#64)
  | .w32 => (low32 x.1, 0#64)

/-- `DLEN(wsel)` in bytes (R184). -/
def digestLength : Width → Nat
  | .w32 => 4
  | .w64 => 8
  | .w128 => 16

/-- The digest as a byte string (20_memory.md R55, R185). -/
def digestBytes (s : State) : List Byte := (le64Bytes s.dig0 ++ le64Bytes s.dig1).take (digestLength s.wsel)

end Sys2Proof.Machine
end

