-- ==== Sys2Proof/Machine/Flags.lean ====
section
/-! DEFINITION. The codes of the condition fields and the host-visible register views (10_state.md R35 to R37).
The only flags are `dvalid` and `sticky`, the only condition field is `err` (R39): arithmetic sets nothing
(00_scope.md R12). -/

namespace Sys2Proof.Machine

/-- The code of a lifecycle state (R25). -/
def lcCode : Lifecycle → BitVec 2
  | .uninit => 0b00#2
  | .active => 0b01#2
  | .finalized => 0b10#2

/-- The code of a width (R26). -/
def widthCode : Width → BitVec 2
  | .w32 => 0b00#2
  | .w64 => 0b01#2
  | .w128 => 0b10#2

/-- The number of an error code (60_exceptions.md R201). -/
def errNumber : ErrCode → BitVec 4
  | .ok => 0#4
  | .invalidLifecycleUse => 1#4
  | .invalidWidth => 2#4
  | .illegalCommand => 3#4
  | .lengthOverflow => 4#4

/-- STATUS (R35), most significant field first: reserved `[63:13]`, `STICKY`, `ERR`, reserved `[7:5]`, `WSEL`,
`DVALID`, `LC`. -/
def status (s : State) : Word :=
  0#51 ++ BitVec.ofBool s.sticky ++ errNumber s.err ++ 0#3 ++ widthCode s.wsel ++ BitVec.ofBool s.dvalid ++ lcCode s.lc

/-- The read-port map (20_memory.md R60, R150): STATUS, LEN, DIGEST0, DIGEST1; selectors 4 to 7 read 0. -/
def readPort (sel : BitVec 3) (s : State) : Word :=
  if sel = 0#3 then status s
  else if sel = 1#3 then s.len
  else if sel = 2#3 then s.dig0
  else if sel = 3#3 then s.dig1
  else 0#64

end Sys2Proof.Machine
end

