-- ==== Sys2Proof/Machine/Operands.lean ====
section
/-! DEFINITION. Operand assembly (30_encoding.md R73, R74, R76; 20_memory.md R52): what a command takes from its
fields. `OPA` and `OPB` used as seeds are used whole. -/

namespace Sys2Proof.Machine

/-- The width a code `W` names (R73); `11` names none. -/
def widthOf (w : BitVec 2) : Option Width :=
  if w = 0b00#2 then some .w32
  else if w = 0b01#2 then some .w64
  else if w = 0b10#2 then some .w128
  else none

/-- Lane `j` of a beat: `OPA[8j+7:8j]` (R52). -/
def lane (opa : Word) (j : Nat) : Byte := opa.extractLsb' (8 * j) 8

/-- The message bytes of a beat (R52, R143): lanes 0 to `NB - 1`, lane 0 first; the others are ignored. -/
def beatBytes (nb : BitVec 4) (opa : Word) : List Byte := (List.range nb.toNat).map (lane opa)

end Sys2Proof.Machine
end

