-- ==== Sys2Proof/Machine/MixCore.lean ====
section
/-! DEFINITION. MixCore, the datapath (40_mix_core.md): pure functions (00_scope.md R16) built from addition modulo
2^64, XOR and rotation alone (R13). The rules give each round both as written-out lines and as one line in the
index `i`; the rounds here are the indexed lines, run in order. The four rounds are irreducible, so that no proof
computes one by accident; `unfold` opens them. Mark of every constant, amount and step order:
TESTED for the short path, UNVERIFIED for the long path, which the spec carries as ASSUMED (log entry 5). -/

namespace Sys2Proof.Machine

/-- `Rot64(x, k)` (R101), used only for `k` in 1 to 63 (log entry 17). -/
def rot64 (x : Word) (k : Nat) : Word := (x <<< k) ||| (x >>> (64 - k))

/-- `v[i] <- x`. -/
def setWord {n : Nat} (v : Vector Word n) (i : Fin n) (x : Word) : Vector Word n := v.set i.val x i.isLt

/-! ## The short path -/

/-- Line `i` of ShortMix (R102), indices mod 4. -/
def shortMixLine (v : Vector Word 4) (ik : Fin 4 × Nat) : Vector Word 4 :=
  let i := ik.1
  let v := setWord v (i + 2) (rot64 v[i + 2] ik.2)
  let v := setWord v (i + 2) (v[i + 2] + v[i + 3])
  setWord v i (v[i] ^^^ v[i + 2])

/-- The lines of ShortMix with their amounts `k_0..k_11` (R102). -/
def shortMixLines : List (Fin 4 × Nat) :=
  [(0, 50), (1, 52), (2, 30), (3, 41), (0, 54), (1, 48), (2, 38), (3, 37), (0, 62), (1, 34), (2, 5), (3, 36)]

/-- `ShortMix` (R102). -/
@[irreducible] def shortMix (v : Vector Word 4) : Vector Word 4 := shortMixLines.foldl shortMixLine v

/-- Line `i` of ShortEnd (R103), indices mod 4. -/
def shortEndLine (v : Vector Word 4) (ik : Fin 4 × Nat) : Vector Word 4 :=
  let x := ik.1 + 2
  let y := ik.1 + 3
  let v := setWord v y (v[y] ^^^ v[x])
  let v := setWord v x (rot64 v[x] ik.2)
  setWord v y (v[y] + v[x])

/-- The lines of ShortEnd with their amounts `k_0..k_10` (R103). -/
def shortEndLines : List (Fin 4 × Nat) :=
  [(0, 15), (1, 52), (2, 26), (3, 51), (0, 28), (1, 9), (2, 47), (3, 54), (0, 32), (1, 25), (2, 63)]

/-- `ShortEnd` (R103), the final avalanche pass. -/
@[irreducible] def shortEnd (v : Vector Word 4) : Vector Word 4 := shortEndLines.foldl shortEndLine v

/-- The start `(a, b, c, d)` of the short path (R104). -/
def shortStart (s1 s2 : Word) : Vector Word 4 := #v[s1, s2, Config.constC, Config.constC]

/-- The first half of a group, and the whole of a half group (R105, R106): two words into `c` and `d`, then
ShortMix. -/
def shortHalf (G : List Byte) (v : Vector Word 4) : Vector Word 4 :=
  shortMix #v[v[0], v[1], v[2] + wordAt G 0, v[3] + wordAt G 1]

/-- One whole 32-byte group `G` (R105). -/
def shortGroup (G : List Byte) (v : Vector Word 4) : Vector Word 4 :=
  let v := shortHalf G v
  #v[v[0] + wordAt G 2, v[1] + wordAt G 3, v[2], v[3]]

/-- The loop of R105: `n` groups from the front of `M`. -/
def shortGroups : Nat → List Byte → Vector Word 4 → Vector Word 4
  | 0, _, v => v
  | n + 1, M, v => shortGroups n (M.drop 32) (shortGroup (M.take 32) v)

/-- The length (R107): `d <- d + (L << 56)`. -/
def shortLength (L : Nat) (v : Vector Word 4) : Vector Word 4 :=
  #v[v[0], v[1], v[2], v[3] + (BitVec.ofNat 64 L <<< 56)]

/-- The tail of 0 to 15 bytes: R108 when there is one, R109 when it is empty (V2). -/
def shortTail (tail : List Byte) (v : Vector Word 4) : Vector Word 4 :=
  if tail.length = 0 then
    #v[v[0], v[1], v[2] + Config.constC, v[3] + Config.constC]
  else
    let T := tail ++ zeros (16 - tail.length)
    #v[v[0], v[1], v[2] + wordAt T 0, v[3] + wordAt T 1]

/-- `Short(M, s1, s2)` (R104 to R110), for messages of 0 to 191 bytes. -/
def short (M : List Byte) (s1 s2 : Word) : Word × Word :=
  let L := M.length
  let groups := shortGroups (L / 32) M (shortStart s1 s2)
  let rest := M.drop (32 * (L / 32))
  let half := if 16 ≤ L % 32 then shortHalf (rest.take 16) groups else groups
  let tail := if 16 ≤ L % 32 then rest.drop 16 else rest
  let out := shortEnd (shortTail tail (shortLength L half))
  (out[0], out[1])

/-! ## The long path -/

/-- Line `i` of Mix (R111), indices mod 12. -/
def mixLine (D : Vector Word 12) (S : Vector Word 12) (ik : Fin 12 × Nat) : Vector Word 12 :=
  let i := ik.1
  let S := setWord S i (S[i] + D[i])
  let S := setWord S (i + 2) (S[i + 2] ^^^ S[i + 10])
  let S := setWord S (i + 11) (S[i + 11] ^^^ S[i])
  let S := setWord S i (rot64 S[i] ik.2)
  setWord S (i + 11) (S[i + 11] + S[i + 1])

/-- The lines of Mix with their amounts `k_0..k_11` (R111). -/
def mixLines : List (Fin 12 × Nat) :=
  [(0, 11), (1, 32), (2, 43), (3, 31), (4, 17), (5, 28), (6, 39), (7, 57), (8, 55), (9, 54), (10, 22), (11, 46)]

/-- `Mix(D, S)` (R111), one block's mixing round. -/
@[irreducible] def mix (D S : Vector Word 12) : Vector Word 12 := mixLines.foldl (mixLine D) S

/-- Line `i` of EndPartial (R112), indices mod 12. -/
def endPartialLine (H : Vector Word 12) (ik : Fin 12 × Nat) : Vector Word 12 :=
  let i := ik.1
  let H := setWord H (i + 11) (H[i + 11] + H[i + 1])
  let H := setWord H (i + 2) (H[i + 2] ^^^ H[i + 11])
  setWord H (i + 1) (rot64 H[i + 1] ik.2)

/-- The lines of EndPartial with their amounts `k_0..k_11` (R112). -/
def endPartialLines : List (Fin 12 × Nat) :=
  [(0, 44), (1, 15), (2, 34), (3, 21), (4, 38), (5, 33), (6, 10), (7, 13), (8, 38), (9, 53), (10, 42), (11, 54)]

/-- `EndPartial(H)` (R112). -/
@[irreducible] def endPartial (H : Vector Word 12) : Vector Word 12 := endPartialLines.foldl endPartialLine H

/-- `End(D, H)` (R113): V2's block add, then three EndPartial rounds. -/
def endMix (D H : Vector Word 12) : Vector Word 12 :=
  endPartial (endPartial (endPartial (Vector.zipWith (· + ·) H D)))

/-- `LongInit(s1, s2)` (R114). -/
def longInit (s1 s2 : Word) : Vector Word 12 :=
  #v[s1, s2, Config.constC, s1, s2, Config.constC, s1, s2, Config.constC, s1, s2, Config.constC]

/-- `S_k(M, s1, s2)` (R115), the state after the first `k` blocks of `M`. -/
def blockState (M : List Byte) (s1 s2 : Word) : Nat → Vector Word 12
  | 0 => longInit s1 s2
  | k + 1 => mix (blockWords (slice M (96 * k) (96 * k + 96))) (blockState M s1 s2 k)

/-- The final block (R116) of the `r` bytes left over: the bytes, zeros, and `r` in the last byte. -/
def finalBlock (rest : List Byte) : List Byte :=
  rest ++ zeros (95 - rest.length) ++ [BitVec.ofNat 8 rest.length]

/-- The end of the long path (R117) from the bytes left over and the block state. -/
def longEnd (rest : List Byte) (H : Vector Word 12) : Word × Word :=
  let H := endMix (blockWords (finalBlock rest)) H
  (H[0], H[1])

/-- The long path (R114 to R117), for messages of 192 bytes or more. -/
def long (M : List Byte) (s1 s2 : Word) : Word × Word :=
  let n := M.length / 96
  longEnd (M.drop (96 * n)) (blockState M s1 s2 n)

/-! ## Selection -/

/-- `Hash128(M, s1, s2)` (R100, R118). -/
def hash128 (M : List Byte) (s1 s2 : Word) : Word × Word :=
  if M.length < Config.thresh then short M s1 s2 else long M s1 s2

end Sys2Proof.Machine
end

