-- ==== Sys2Proof/Machine/StreamBuffer.lean ====
section
/-! DEFINITION. The StreamBuffer's per-byte step and block flush machine, and the two ends of a hash
(41_stream_buffer.md R144 to R149). -/

namespace Sys2Proof.Machine

/-- `rem(len)` (10_state.md R32): the bytes held in `buf` that no block mix has yet taken. -/
def rem (len : Word) : Nat :=
  if len.toNat < Config.thresh then len.toNat else len.toNat % Config.block

/-- `buf[a..b)`. -/
def bufSlice (s : State) (a b : Nat) : List Byte := slice s.buf.toList a b

/-- `LONG_ENTRY` (R145): from the seeds in `h[0]`, `h[1]`, mix both halves of the buffer. -/
def longEntry (s : State) : State :=
  { s with
    h := mix (blockWords (bufSlice s 96 192)) (mix (blockWords (bufSlice s 0 96)) (longInit s.h[0] s.h[1])) }

/-- `FLUSH` (R146): mix the one full block. -/
def flush (s : State) : State := { s with h := mix (blockWords (bufSlice s 0 96)) s.h }

/-- The first two lines of APPEND (R144): the byte at index `rem(len)`, and the length. -/
def storeByte (s : State) (b : Byte) : State :=
  { s with buf := s.buf.setIfInBounds (rem s.len) b, len := s.len + 1 }

/-- The last two lines of APPEND (R144): what the new length makes due. -/
def flushIfDue (s : State) : State :=
  if s.len.toNat = Config.thresh then longEntry s
  else if Config.thresh < s.len.toNat ∧ s.len.toNat % Config.block = 0 then flush s
  else s

/-- `APPEND(b)` (R144). UPDATE's length check rules out the wrap of `len` (R24). -/
def appendByte (s : State) (b : Byte) : State := flushIfDue (storeByte s b)

/-- The loop of UPDATE (R143): the bytes in order, one APPEND each. -/
def appendBytes (s : State) (bs : List Byte) : State := bs.foldl appendByte s

/-- `FINAL_SHORT` (R148). -/
def finalShort (s : State) : Word × Word := short (bufSlice s 0 s.len.toNat) s.h[0] s.h[1]

/-- `FINAL_LONG` (R149): on a copy, with the padding built afresh. -/
def finalLong (s : State) : Word × Word := longEnd (bufSlice s 0 (s.len.toNat % Config.block)) s.h

/-- The choice FINAL makes (R147, 10_state.md R33). -/
def finalHash (s : State) : Word × Word := if s.len.toNat < Config.thresh then finalShort s else finalLong s

end Sys2Proof.Machine
end

