-- ==== Sys2Proof/Machine/Ops.lean ====
section
/-! DEFINITION. The operations the meanings share: rejecting a command and completing one (60_exceptions.md R203,
R204), the register writes of INIT and FINAL, the read port, and the host's events. -/

namespace Sys2Proof.Machine

/-- `raise E` (60_exceptions.md R203): the one way this engine reports a failure. It "writes `err <- code(E)` and
`sticky <- 1`, writes nothing else, and ends the command". No pc, status or mode is saved and control goes nowhere
(R207), so there is no return from it either (R208). -/
def raiseError (e : ErrCode) (s : State) : State := { s with err := e, sticky := true }

/-- Success (R204): `err <- 0`, `sticky` unchanged. -/
def complete (s : State) : State := { s with err := .ok }

/-- The writes of INIT (R142) for a legal width and its effective seeds. -/
def startHash (w : Width) (e : Word × Word) (s : State) : State :=
  { s with
    h := #v[e.1, e.2, 0#64, 0#64, 0#64, 0#64, 0#64, 0#64, 0#64, 0#64, 0#64, 0#64]
    buf := Vector.replicate 192 0#8
    len := 0#64
    wsel := w
    dig0 := 0#64
    dig1 := 0#64
    dvalid := false
    lc := .active }

/-- The writes of FINAL (R147) for MixCore's two output words. -/
def publishDigest (x : Word × Word) (s : State) : State :=
  { s with
    dig0 := (formatDigest s.wsel x).1
    dig1 := (formatDigest s.wsel x).2
    dvalid := true
    lc := .finalized }

/-- A read returns a value to the host and writes no state of the engine (R150): the model records the value in the
run's observation (R241, log entry 2). -/
def returnRead (v : Word) (s : State) : State := { s with reads := s.reads ++ [v] }

/-- The reset event (70_reset_and_hazards.md R230, R231): every piece of the engine's state takes its reset value.
The run's observation and the host's sequence are not the engine's (log entries 2, 6). -/
def resetEngine (s : State) : State := { State.reset with inbox := s.inbox, reads := s.reads }

/-- The host's event is taken from the front of its sequence (20_memory.md R61). -/
def takeEvent (rest : List HostEvent) (s : State) : State := { s with inbox := rest }

/-- The host puts a transaction where the next step takes one. -/
def offer (t : Transaction) (s : State) : State := { s with inbox := .port t :: s.inbox }

/-- A command the decoder refuses (R77, R140 step 1): every kind of refusal is `IllegalCommand` (R78). -/
def rejectCommand (_ : DecodeError) (s : State) : State := raiseError .illegalCommand s

end Sys2Proof.Machine
end

