-- ==== Sys2Proof/Machine/Command.lean ====
section
/-! DEFINITION. The meanings of the command port's instructions (41_stream_buffer.md R140 to R147): the checks in the
order written, which is the priority of 60_exceptions.md R205, then the writes, then `err <- 0`. -/

namespace Sys2Proof.Machine

/-- NOP (R141): no check, no write but `err`. -/
def execNop (_opa _opb : Word) (s : State) : Host.Outcome State Fault Refusal := .next (complete s)

/-- INIT (R142): legal in every lifecycle state (R156). -/
def execInit (w : BitVec 2) (opa opb : Word) (s : State) : Host.Outcome State Fault Refusal :=
  match widthOf w with
  | none => .next (raiseError .invalidWidth s)
  | some width => .next (complete (startHash width (seedSelect Config.h32SeedMode width opa opb) s))

/-- UPDATE (R143). A term with `NB` above 8, which no encoding yields, raises what R201 names for that count
(log entry 10). -/
def execUpdate (nb : BitVec 4) (opa _opb : Word) (s : State) : Host.Outcome State Fault Refusal :=
  if Config.beatBytes < nb.toNat then .next (raiseError .illegalCommand s)
  else if s.lc ≠ .active then .next (raiseError .invalidLifecycleUse s)
  else if Config.maxLen < s.len.toNat + nb.toNat then .next (raiseError .lengthOverflow s)
  else .next (complete (appendBytes s (beatBytes nb opa)))

/-- FINAL (R147). -/
def execFinal (_opa _opb : Word) (s : State) : Host.Outcome State Fault Refusal :=
  if s.lc ≠ .active then .next (raiseError .invalidLifecycleUse s)
  else .next (complete (publishDigest (finalHash s) s))

end Sys2Proof.Machine
end

