-- ==== Sys2Proof/Machine/ReadPort.lean ====
section
/-! DEFINITION. The meaning of the read port's one instruction (41_stream_buffer.md R150). -/

namespace Sys2Proof.Machine

/-- RD (R150): legal in every lifecycle state, no error, no write, not even `err`. -/
def execRd (sel : BitVec 3) (s : State) : Host.Outcome State Fault Refusal := .next (returnRead (readPort sel s) s)

end Sys2Proof.Machine
end

