-- ==== Sys2Proof/Machine/Dispatch.lean ====
section
/-! DEFINITION. One arm per constructor of `Instr`, each one direct call of its meaning. -/

namespace Sys2Proof.Machine

def exec (i : Instr) (s : State) : Host.Outcome State Fault Refusal :=
  match i with
  | .nop opa opb => Sys2Proof.Machine.execNop opa opb s
  | .init w opa opb => Sys2Proof.Machine.execInit w opa opb s
  | .update nb opa opb => Sys2Proof.Machine.execUpdate nb opa opb s
  | .final opa opb => Sys2Proof.Machine.execFinal opa opb s
  | .rd sel => Sys2Proof.Machine.execRd sel s

end Sys2Proof.Machine
end

