-- ==== Sys2Proof/Machine/Step.lean ====
section
/-! DEFINITION. One step: the engine takes the host's next event and completes it (20_memory.md R61, 41_stream_buffer.md
R140). Nothing is fetched (R64): the next instruction is the transaction at the front of `inbox`. -/

namespace Sys2Proof.Machine

/-- With no event waiting the engine is idle, "and that idle state preserves all state" (60_exceptions.md R216). A reset drops
the transaction in flight: for a command that is R231, for a read it is the model's choice (DESIGN CHOICE, log entry 19). -/
def step (s : State) : Host.Outcome State Fault Refusal :=
  match s.inbox with
  | [] => .next s
  | .reset _ :: rest => .next (resetEngine (takeEvent rest s))
  | .port t :: rest =>
    match decode t with
    | .error e => .next (rejectCommand e (takeEvent rest s))
    | .ok i => exec i (takeEvent rest s)

/-- `s` with the instruction of bits `w` (numbered as the opcode table numbers them) waiting as the host's next
transaction (log entries 1, 8). -/
def State.withFetchWord (s : State) (nbits w : Nat) : State := offer (transactionOfBits nbits w) s

end Sys2Proof.Machine
end

