-- ==== Sys2Proof/Machine/Assembler.lean ====
section
/-! DEFINITION. The assembler notation of 30_encoding.md R83 to R88: a line as text, the line it means, and the
transactions it assembles to. An error of the assembler is no command (R88): it is `none`. -/

namespace Sys2Proof.Machine

/-- A source line. An omitted seed is `none` (R87); a number is not yet checked against its field (R88). -/
inductive AsmLine where
  | nop
  | init (w : Width) (s1 s2 : Option Nat)
  | update (n w : Nat)
  | final
  /-- `rd k`, with the value a program may write after `->` (R84). -/
  | rd (sel : Nat) (expect : Option Nat)
  /-- The pseudo-instruction `update.bytes` (R85). -/
  | updateBytes (bytes : List Nat)
  /-- The pseudo-instruction `hash.W` (R86). -/
  | hash (w : Width) (s1 s2 : Option Nat) (bytes : List Nat)
  deriving DecidableEq, Repr

/-! ## From a line to transactions -/

/-- A number that must fit a field of `bits` bits (R88): never truncated. -/
def fieldOf (bits n : Nat) : Option (BitVec bits) := if n < 2 ^ bits then some (BitVec.ofNat bits n) else none

/-- A seed operand: 0 when omitted (R87). -/
def seedField (s : Option Nat) : Option Word := fieldOf 64 (s.getD 0)

/-- The code of a width in `W` (R73). -/
def widthField : Width → BitVec 2
  | .w32 => 0b00#2
  | .w64 => 0b01#2
  | .w128 => 0b10#2

/-- `init.W` (R83): the narrow widths take one seed, and their `OPB` is 0. -/
def assembleInit (w : Width) (s1 s2 : Option Nat) : Option Transaction :=
  match w, s2 with
  | .w128, _ => do return encode (.init (widthField w) (← seedField s1) (← seedField s2))
  | .w64, none => do return encode (.init (widthField w) (← seedField s1) 0#64)
  | .w32, none => do return encode (.init (widthField w) (← seedField s1) 0#64)
  | .w64, some _ => none
  | .w32, some _ => none

/-- The bytes of `update.bytes`, eight to a beat; only the last beat can be shorter (R85). -/
def chunks8 : List Byte → List (List Byte)
  | b0 :: b1 :: b2 :: b3 :: b4 :: b5 :: b6 :: b7 :: rest => [b0, b1, b2, b3, b4, b5, b6, b7] :: chunks8 rest
  | [] => []
  | last => [last]

/-- One beat of `update.bytes`: `n` is the count, `w` is `LE64` of the bytes padded with zero bytes (R85). -/
def beatOf (bs : List Byte) : Instr :=
  .update (BitVec.ofNat 4 bs.length) (le64 (bs ++ zeros (8 - bs.length))) 0#64

/-- The expansion of `update.bytes` (R85). -/
def beatsOf (bs : List Byte) : List Transaction := (chunks8 bs).map fun c => encode (beatOf c)

/-- Byte operands, each 0 to 255 (R85). -/
def byteFields (ns : List Nat) : Option (List Byte) := ns.mapM (fieldOf 8)

/-- The transactions of a line (R83 to R87). -/
def assemble : AsmLine → Option (List Transaction)
  | .nop => some [encode (.nop 0#64 0#64)]
  | .init w s1 s2 => do return [← assembleInit w s1 s2]
  | .update n w =>
    if n ≤ Config.beatBytes then do return [encode (.update (BitVec.ofNat 4 n) (← fieldOf 64 w) 0#64)] else none
  | .final => some [encode (.final 0#64 0#64)]
  | .rd sel _ => do return [encode (.rd (← fieldOf 3 sel))]
  | .updateBytes bytes => do return beatsOf (← byteFields bytes)
  | .hash w s1 s2 bytes => do
    return (← assembleInit w s1 s2) :: beatsOf (← byteFields bytes) ++ [encode (.final 0#64 0#64)]

/-! ## From text to a line -/

/-- Blank characters: a space and a tab (log entry 12). -/
def isBlank (c : Char) : Bool := c = ' ' || c = '\t'

/-- The pieces of a text between the characters that satisfy `p`, the empty pieces too. -/
def pieces (p : Char → Bool) : List Char → List (List Char)
  | [] => [[]]
  | c :: cs =>
    if p c then [] :: pieces p cs
    else
      match pieces p cs with
      | [] => [[c]]
      | w :: ws => (c :: w) :: ws

/-- The words of a text: its pieces between blanks. -/
def wordsOf (cs : List Char) : List (List Char) := (pieces isBlank cs).filter (· ≠ [])

/-- The value of a digit, hexadecimal in either case (log entry 12). -/
def digitOf (c : Char) : Option Nat :=
  let n := c.toNat
  if 48 ≤ n ∧ n ≤ 57 then some (n - 48)
  else if 97 ≤ n ∧ n ≤ 102 then some (n - 87)
  else if 65 ≤ n ∧ n ≤ 70 then some (n - 55)
  else none

/-- A non-empty run of digits below `base`. -/
def digitsValue (base : Nat) : List Char → Nat → Option Nat
  | [], _ => none
  | [c], acc => do
    let d ← digitOf c
    if d < base then some (base * acc + d) else none
  | c :: cs, acc => do
    let d ← digitOf c
    if d < base then digitsValue base cs (base * acc + d) else none

/-- A number: hexadecimal with the prefix `0x`, else decimal (R88). -/
def numberOf : List Char → Option Nat
  | '0' :: 'x' :: ds => digitsValue 16 ds 0
  | ds => digitsValue 10 ds 0

/-- An operand field that holds exactly one number. -/
def numberField (field : List Char) : Option Nat :=
  match wordsOf field with
  | [w] => numberOf w
  | _ => none

/-- Byte values written in hexadecimal without `0x` (R85). -/
def byteWords (field : List Char) : Option (List Nat) := (wordsOf field).mapM fun w => digitsValue 16 w 0

/-- The selector a `rd` operand names (R82, R84). -/
def selectorOf (w : List Char) : Option Nat :=
  if w = ['s', 't', 'a', 't', 'u', 's'] then some 0
  else if w = ['l', 'e', 'n'] then some 1
  else if w = ['d', 'i', 'g', 'e', 's', 't', '0'] then some 2
  else if w = ['d', 'i', 'g', 'e', 's', 't', '1'] then some 3
  else numberOf w

/-- The width a suffix `.32`, `.64` or `.128` names (R83, R86). -/
def widthSuffix (w : List Char) : Option Width :=
  if w = ['3', '2'] then some .w32
  else if w = ['6', '4'] then some .w64
  else if w = ['1', '2', '8'] then some .w128
  else none

/-- The seeds of a list of operand fields: none, one, or two (R87). -/
def seedFields : List (List Char) → Option (Option Nat × Option Nat)
  | [] => some (none, none)
  | [a] => do return (some (← numberField a), none)
  | [a, b] => do return (some (← numberField a), some (← numberField b))
  | _ => none

/-- The operand fields of a line: its text after the mnemonic, cut at the commas; none when it is blank. -/
def operandFields (text : List Char) : List (List Char) :=
  if wordsOf text = [] then [] else pieces (· = ',') text

/-- `rd x` and `rd x -> value` (R84). -/
def parseRd (text : List Char) : Option AsmLine :=
  match wordsOf text with
  | [x] => do return .rd (← selectorOf x) none
  | [x, ['-', '>'], v] => do return .rd (← selectorOf x) (some (← numberOf v))
  | _ => none

/-- `hash.W seeds, <bytes>`: the last field is the bytes, the fields before it the seeds (log entry 12). -/
def parseHash (w : Width) (text : List Char) : Option AsmLine :=
  match (operandFields text).reverse with
  | [] => some (.hash w none none [])
  | bytes :: seeds => do
    let s ← seedFields seeds.reverse
    return .hash w s.1 s.2 (← byteWords bytes)

/-- A line from its mnemonic and the text after it (R83 to R87). -/
def parseOperands (mnemonic text : List Char) : Option AsmLine :=
  match mnemonic with
  | ['n', 'o', 'p'] => if wordsOf text = [] then some .nop else none
  | ['f', 'i', 'n', 'a', 'l'] => if wordsOf text = [] then some .final else none
  | ['r', 'd'] => parseRd text
  | ['u', 'p', 'd', 'a', 't', 'e'] =>
    match operandFields text with
    | [n, w] => do return .update (← numberField n) (← numberField w)
    | _ => none
  | ['u', 'p', 'd', 'a', 't', 'e', '.', 'b', 'y', 't', 'e', 's'] => do return .updateBytes (← byteWords text)
  | 'i' :: 'n' :: 'i' :: 't' :: '.' :: w => do
    let s ← seedFields (operandFields text)
    return .init (← widthSuffix w) s.1 s.2
  | 'h' :: 'a' :: 's' :: 'h' :: '.' :: w => do parseHash (← widthSuffix w) text
  | _ => none

/-- One line of text (R83): a comment starts with `;`; a blank line is no command. -/
def parseLine (line : List Char) : Option (Option AsmLine) :=
  let text := (line.takeWhile (· ≠ ';')).dropWhile isBlank
  if text = [] then some none
  else do return some (← parseOperands (text.takeWhile fun c => !isBlank c) (text.dropWhile fun c => !isBlank c))

/-- A program, one line after the other: the host's sequence of transactions. -/
def assembleProgram : List (List Char) → Option (List Transaction)
  | [] => some []
  | l :: ls => do
    let here ← match ← parseLine l with
      | none => some []
      | some a => assemble a
    return here ++ (← assembleProgram ls)

end Sys2Proof.Machine
end

