-- ==== Sys2Proof/Machine/HostBinding.lean ====
section
/-! DEFINITION. The host's duty before a seed reaches the port: the contract of SeedCodec (42_digest_formatter.md R189,
20_memory.md R54). It is outside the engine (00_scope.md R7, log entry 16): no meaning calls it. -/

namespace Sys2Proof.Machine

/-- A seed as a host program holds it (R189). -/
inductive SeedInput where
  | absent
  | integer (k : Int)
  | buffer (b : List Byte)
  deriving DecidableEq, Repr

/-- The host's own error for a seed (R189, R190); the engine has no code for it (60_exceptions.md R210). -/
inductive HostError where
  | invalidSeedEncoding
  deriving DecidableEq, Repr

/-- The 64-bit port field a host sends for a seed (R189). -/
def seedCodec : SeedInput → Except HostError Word
  | .absent => .ok 0#64
  | .integer k =>
    if 0 ≤ k ∧ k ≤ 2 ^ 64 - 1 then .ok (BitVec.ofInt 64 k) else .error .invalidSeedEncoding
  | .buffer b => if b.length = 8 then .ok (le64 b) else .error .invalidSeedEncoding

end Sys2Proof.Machine
end

