-- ==== Sys2Proof/Machine/Platform.lean ====
section
/-! DEFINITION. A platform of several engines (10_state.md R41, 60_exceptions.md R214): one full copy of the state per
engine; an engine's step reads and writes its own copy only (log entry 14). -/

namespace Sys2Proof.Machine

/-- The engines of a platform right after reset: each starts in `UNINIT`. -/
def platformReset (n : Nat) : List State := List.replicate n State.reset

/-- Engine `k` takes its next step. A number that is no engine's changes nothing. -/
def stepEngine (k : Nat) (p : List State) : Host.Outcome (List State) Fault Refusal :=
  match p[k]? with
  | none => .next p
  | some s =>
    match step s with
    | .next t => .next (p.set k t)
    | .fault r => .fault r
    | .refused r => .refused r

end Sys2Proof.Machine
end

