-- ==== Sys2Proof/Safety.lean ====
section
/-! DEFINITION. What statements speak of: a run (70_reset_and_hazards.md R241), what a host may rely on (R236), the
message a state holds (10_state.md R34), the registers' invariant, and the states a host cannot tell apart (R38). -/

namespace Sys2Proof.Machine

/-! ## Runs -/

/-- `k` steps. -/
def run : Nat → State → Host.Outcome State Fault Refusal
  | 0, s => .next s
  | k + 1, s =>
    match step s with
    | .next t => run k t
    | .fault r => .fault r
    | .refused r => .refused r

/-- A run (R241): it ends when the host's sequence ends. -/
def runAll (s : State) : Host.Outcome State Fault Refusal := run s.inbox.length s

/-- `s` with a sequence of transactions to come. -/
def sending (ts : List Transaction) (s : State) : State := { s with inbox := ts.map .port }

/-- A beat of UPDATE: its byte count and its data word. -/
abbrev Beat := BitVec 4 × Word

/-- The message a sequence of beats carries (41_stream_buffer.md R153): the beats' bytes, concatenated. -/
def beatsMessage (beats : List Beat) : List Byte := beats.flatMap fun b => beatBytes b.1 b.2

/-- One hash as the host sends it (R158, R159): INIT, any UPDATE beats, FINAL. -/
def hashSequence (w : BitVec 2) (a b : Word) (beats : List Beat) : List Transaction :=
  encode (.init w a b) :: beats.map (fun x => encode (.update x.1 x.2 0#64)) ++ [encode (.final 0#64 0#64)]

/-! ## What a host may rely on -/

/-- The least a host checks after FINAL (R236): `err = 0` and `dvalid = 1`. -/
abbrev digestReadable (s : State) : Prop := s.err = .ok ∧ s.dvalid = true

/-- No command has failed since reset (R217). -/
abbrev cleanSinceReset (s : State) : Prop := s.sticky = false

/-! ## Command words by their bits -/

/-- `CMD[3:0]`, `CMD[5:4]` and `CMD[11:8]` as numbers (30_encoding.md R71). -/
def opNumber (cmd : BitVec 32) : Nat := cmd.toNat % 16
def widthBits (cmd : BitVec 32) : Nat := cmd.toNat / 16 % 4
def countNumber (cmd : BitVec 32) : Nat := cmd.toNat / 256 % 16

/-- The illegal command words, in arithmetic on the word, apart from the decoder (30_encoding.md R75, R78): a reserved
opcode; a reserved bit of the opcode set; UPDATE with a count from 9 to 15. -/
abbrev illegalWord (cmd : BitVec 32) : Prop :=
  4 ≤ opNumber cmd ∨
  ((opNumber cmd = 0 ∨ opNumber cmd = 3) ∧ cmd.toNat / 16 ≠ 0) ∨
  (opNumber cmd = 1 ∧ cmd.toNat / 64 ≠ 0) ∨
  (opNumber cmd = 2 ∧ (cmd.toNat / 4096 ≠ 0 ∨ cmd.toNat / 16 % 16 ≠ 0 ∨ 8 < countNumber cmd))

/-- The one code a command reports: the first that applies in the order of 60_exceptions.md R205. -/
def firstError (cmd : BitVec 32) (s : State) : ErrCode :=
  if illegalWord cmd then .illegalCommand
  else if opNumber cmd = 1 ∧ widthBits cmd = 3 then .invalidWidth
  else if (opNumber cmd = 2 ∨ opNumber cmd = 3) ∧ s.lc ≠ .active then .invalidLifecycleUse
  else if opNumber cmd = 2 ∧ 2 ^ 64 - 1 < s.len.toNat + countNumber cmd then .lengthOverflow
  else .ok

/-! ## The message a state holds -/

/-- The block invariant (R34) for a message `M` and effective seeds `e1`, `e2`: `M` fixes the state. -/
structure HoldsMessage (M : List Byte) (e1 e2 : Word) (s : State) : Prop where
  length : s.len.toNat = M.length
  short : M.length < 192 → bufSlice s 0 M.length = M ∧ s.h[0] = e1 ∧ s.h[1] = e2
  long : 192 ≤ M.length →
    bufSlice s 0 (M.length % 96) = M.drop (96 * (M.length / 96)) ∧ s.h = blockState M e1 e2 (M.length / 96)

/-! ## The registers' invariant -/

/-- What every run from reset keeps of the host-visible registers and of `h` in short mode. -/
structure RegisterInv (s : State) : Prop where
  /-- Before the first INIT (R25, R40): no length, the reset width. -/
  uninit : s.lc = .uninit → s.len = 0#64 ∧ s.wsel = .w128
  /-- `dvalid` is set exactly between FINAL and the next INIT (R29, R151). -/
  valid : s.dvalid = true ↔ s.lc = .finalized
  /-- While `dvalid = 0` both digest words read 0 (R37). -/
  digestZero : s.dvalid = false → s.dig0 = 0#64 ∧ s.dig1 = 0#64
  /-- The unused parts of a narrow digest read 0 (R183). -/
  narrow64 : s.wsel = .w64 → s.dig1 = 0#64
  narrow32 : s.wsel = .w32 → s.dig0.toNat < 2 ^ 32 ∧ s.dig1 = 0#64
  /-- A failed command sets `sticky` (R31). -/
  failed : s.err ≠ .ok → s.sticky = true
  /-- In short mode `h[2..11]` hold 0 (R22). -/
  shortMode : s.lc ≠ .uninit → s.len.toNat < 192 → ∀ i : Fin 12, 2 ≤ i.val → s.h[i] = 0#64

/-! ## What a host cannot tell apart -/

/-- Two states that differ only in hidden bytes and words no rule reads before it writes them (R22, R23, R38, R145,
40_mix_core.md R120): outside `ACTIVE` all of `h` and `buf`; in short mode `h[2..11]` and `buf` from `len` on; in
long mode `buf` from `rem(len)` on. -/
structure SameToHost (s t : State) : Prop where
  registers : { t with h := s.h, buf := s.buf } = s
  shortMode : s.lc = .active → s.len.toNat < 192 →
    s.h[0] = t.h[0] ∧ s.h[1] = t.h[1] ∧ bufSlice s 0 (rem s.len) = bufSlice t 0 (rem s.len)
  longMode : s.lc = .active → 192 ≤ s.len.toNat → s.h = t.h ∧ bufSlice s 0 (rem s.len) = bufSlice t 0 (rem s.len)

end Sys2Proof.Machine
end

