-- ==== Sys2Proof/Certificates/Slice0/Obligations.lean ====
section
/-! DEFINITION. The statements about the model, each a formal reading of numbered rules of spec/. A statement about a next
state says that the instruction answers it; `{ s with … }` is its frame: every field not named is unchanged. -/

open Sys2Proof Sys2Proof.Machine

/-! ## Reset and the register views -/

/-- R234: what a host reads right after reset: STATUS `0x10`, and 0 from LEN, DIGEST0 and DIGEST1. -/
def Obligations.ReadsRightAfterReset : Prop :=
  exec (.rd 0#3) State.reset = .next { State.reset with reads := [0x0000000000000010#64] } ∧
  exec (.rd 1#3) State.reset = .next { State.reset with reads := [0#64] } ∧
  exec (.rd 2#3) State.reset = .next { State.reset with reads := [0#64] } ∧
  exec (.rd 3#3) State.reset = .next { State.reset with reads := [0#64] } ∧
  lcCode State.reset.lc = 0b00#2 ∧ State.reset.dvalid = false ∧ widthCode State.reset.wsel = 0b10#2 ∧
  errNumber State.reset.err = 0#4 ∧ State.reset.sticky = false

/-- R230, R231: the reset event gives every register its value of R40, whatever transaction is in flight, and is the only
event that clears `sticky`. `h` and `buf` are unspecified there, so nothing is said of them. The model's choices, no rule of
the spec: the host's own list of returned reads is kept (log entry 2), and a read in flight returns no value (log entry 19). -/
def Obligations.ResetAbandonsAndOnlyResetClearsSticky : Prop :=
  (∀ (s : State) (inFlight : Option Transaction) (rest : List HostEvent), s.inbox = .reset inFlight :: rest →
    ∃ t, step s = .next t ∧
      t = { s with h := t.h, buf := t.buf, len := 0#64, lc := .uninit, wsel := .w128, dig0 := 0#64, dig1 := 0#64,
                   dvalid := false, err := .ok, sticky := false, inbox := rest }) ∧
  (∀ s t : State, (∀ inFlight rest, s.inbox ≠ .reset inFlight :: rest) → s.sticky = true → step s = .next t →
    t.sticky = true)

/-- R35: the fields of STATUS, and its reserved bits, which read 0. -/
def Obligations.StatusFieldsFollowRegisters : Prop :=
  ∀ s : State,
    (status s).extractLsb 1 0 = lcCode s.lc ∧
    (status s).extractLsb 2 2 = BitVec.ofBool s.dvalid ∧
    (status s).extractLsb 4 3 = widthCode s.wsel ∧
    (status s).extractLsb 7 5 = 0#3 ∧
    (status s).extractLsb 11 8 = errNumber s.err ∧
    (status s).extractLsb 12 12 = BitVec.ofBool s.sticky ∧
    (status s).extractLsb 63 13 = 0#51

/-- R25, R26: the codes of `lc` and of `wsel`; neither ever holds 11. The numbers of R201's errors beside them. -/
def Obligations.RegisterCodes : Prop :=
  lcCode .uninit = 0b00#2 ∧ lcCode .active = 0b01#2 ∧ lcCode .finalized = 0b10#2 ∧
  widthCode .w32 = 0b00#2 ∧ widthCode .w64 = 0b01#2 ∧ widthCode .w128 = 0b10#2 ∧
  (∀ s : State, lcCode s.lc ≠ 0b11#2 ∧ widthCode s.wsel ≠ 0b11#2 ∧ (errNumber s.err).toNat ≤ 4) ∧
  errNumber .ok = 0#4 ∧ errNumber .invalidLifecycleUse = 1#4 ∧ errNumber .invalidWidth = 2#4 ∧
  errNumber .illegalCommand = 3#4 ∧ errNumber .lengthOverflow = 4#4

/-- R150, R60: a read of each selector returns its register, selectors 4 to 7 return 0, in every state; a read writes no
state of the engine, not even `err`. -/
def Obligations.ReadPortMap : Prop :=
  ∀ s : State,
    exec (.rd 0#3) s = .next { s with reads := s.reads ++ [status s] } ∧
    exec (.rd 1#3) s = .next { s with reads := s.reads ++ [s.len] } ∧
    exec (.rd 2#3) s = .next { s with reads := s.reads ++ [s.dig0] } ∧
    exec (.rd 3#3) s = .next { s with reads := s.reads ++ [s.dig1] } ∧
    ∀ sel : BitVec 3, 4 ≤ sel.toNat → exec (.rd sel) s = .next { s with reads := s.reads ++ [0#64] }

/-- R59: reads in between change nothing a later instruction does, nor what it returns. The list of returned values is the model's
own field (log entry 2). -/
def Obligations.ReadsDoNotDisturb : Prop :=
  ∀ (sels : List (BitVec 3)) (i : Instr) (s t : State), exec i s = .next t →
    ∃ (values : List Word) (u : State), values.length = sels.length ∧
      runAll (sending (sels.map .read) s) = .next { s with inbox := [], reads := s.reads ++ values } ∧
      exec i { s with reads := s.reads ++ values } = .next u ∧
      { u with reads := t.reads } = t ∧ u.reads = s.reads ++ values ++ t.reads.drop s.reads.length

/-! ## Decoding and encoding -/

/-- Every well-formed instruction of either port, at every operand, decodes from its encoding. -/
def Obligations.DecodeOfEncode : Prop := ∀ i : Instr, i.wellFormed = true → decode (encode i) = .ok i

/-- Every transaction the decoder accepts is the one encoding of a well-formed instruction. -/
def Obligations.EncodeOfDecode : Prop :=
  ∀ (t : Transaction) (i : Instr), decode t = .ok i → i.wellFormed = true ∧ encode i = t

/-- R75: a command selects an opcode exactly when `(CMD & mask) = match`; for UPDATE the count of R74 must then be legal too.
The decoded fields are the ones at R71's places. -/
def Obligations.DecodeSelectsByMask : Prop :=
  ∀ (cmd : BitVec 32) (a b : Word),
    (decode (.command cmd a b) = .ok (.nop a b) ↔ cmd &&& 0xFFFFFFFF#32 = 0x00000000#32) ∧
    (decode (.command cmd a b) = .ok (.init (cmd.extractLsb 5 4) a b) ↔ cmd &&& 0xFFFFFFCF#32 = 0x00000001#32) ∧
    (decode (.command cmd a b) = .ok (.update (cmd.extractLsb 11 8) a b) ↔
      cmd &&& 0xFFFFF0FF#32 = 0x00000002#32 ∧ (cmd.extractLsb 11 8).toNat ≤ 8) ∧
    (decode (.command cmd a b) = .ok (.final a b) ↔ cmd &&& 0xFFFFFFFF#32 = 0x00000003#32)

/-- Command words written out from R75 and R83, one or two of each row, and reads from R82. -/
def Obligations.WordsDecodeAsWritten : Prop :=
  decode (.command 0b00000000000000000000000000000000#32 5 6) = .ok (.nop 5 6) ∧
  decode (.command 0b00000000000000000000000000010001#32 5 6) = .ok (.init 0b01#2 5 6) ∧
  decode (.command 0b00000000000000000000000000110001#32 5 6) = .ok (.init 0b11#2 5 6) ∧
  decode (.command 0b00000000000000000000001100000010#32 5 6) = .ok (.update 3#4 5 6) ∧
  decode (.command 0b00000000000000000000100000000010#32 5 6) = .ok (.update 8#4 5 6) ∧
  decode (.command 0b00000000000000000000000000000011#32 5 6) = .ok (.final 5 6) ∧
  decode (.read 0b010#3) = .ok (.rd 2#3)

/-- R78: the words that are illegal, by their bits, are exactly those the decoder refuses; such a word raises `IllegalCommand`,
code 3, with no other effect, and INIT with `W = 11` raises `InvalidWidth`, code 2. -/
def Obligations.IllegalWordsAreRefused : Prop :=
  (∀ (cmd : BitVec 32) (a b : Word), illegalWord cmd ↔ ∃ e, decode (.command cmd a b) = .error e) ∧
  (∀ (s : State) (cmd : BitVec 32) (a b : Word) (rest : List HostEvent),
    s.inbox = .port (.command cmd a b) :: rest → illegalWord cmd →
      step s = .next { s with err := .illegalCommand, sticky := true, inbox := rest }) ∧
  (∀ (s : State) (a b : Word), exec (.init 0b11#2 a b) s = .next { s with err := .invalidWidth, sticky := true }) ∧
  errNumber .illegalCommand = 3#4 ∧ errNumber .invalidWidth = 2#4

/-! ## The step -/

/-- A transaction at the front of the host's sequence that decodes to an instruction is executed, on the state from which it
has been taken. The sequence is the model's (log entry 1). -/
def Obligations.StepExecutesTheDecodedInstruction : Prop :=
  ∀ (s : State) (tr : Transaction) (rest : List HostEvent) (i : Instr),
    s.inbox = .port tr :: rest → decode tr = .ok i → step s = exec i { s with inbox := rest }

/-- R216: with no command to execute the engine is idle, and that preserves all state. The host's sequence is the model's own field
(log entry 1). -/
def Obligations.IdleKeepsAllState : Prop := ∀ s : State, s.inbox = [] → step s = .next s

/-- R240, R200: every run of any number of steps from any state ends, and never in a stop. -/
def Obligations.RunsNeverStop : Prop := ∀ (k : Nat) (s : State), ∃ t, run k s = .next t

/-! ## The commands -/

/-- R141: NOP's word, its one write, and that a word with `OP = 0000` and any of `CMD[31:4]` set is `IllegalCommand`. -/
def Obligations.NopWritesErrOnly : Prop :=
  (∀ (s : State) (a b : Word),
    encode (.nop a b) = .command 0x00000000#32 a b ∧ exec (.nop a b) s = .next { s with err := .ok }) ∧
  (∀ (s : State) (cmd : BitVec 32) (a b : Word) (rest : List HostEvent),
    s.inbox = .port (.command cmd a b) :: rest → cmd.extractLsb 3 0 = 0#4 → cmd.extractLsb 31 4 ≠ 0#28 →
      step s = .next { s with err := .illegalCommand, sticky := true, inbox := rest })

/-- R142: INIT's word; its writes in any lifecycle state, for each width code: the effective seeds of R181 in `h[0]` and `h[1]`,
everything else cleared, the width latched; `sticky` and the rest unchanged. `W = 11` raises `InvalidWidth`, and a word with
`OP = 0001` and a reserved bit set is `IllegalCommand`. -/
def Obligations.InitStartsAHash : Prop :=
  (∀ (w : BitVec 2) (a b : Word), encode (.init w a b) = .command (BitVec.ofNat 32 (0x00000001 + w.toNat * 2 ^ 4)) a b) ∧
  (∀ (s : State) (a b : Word),
    let started (w : Width) (e1 e2 : Word) : State :=
      { s with h := #v[e1, e2, 0#64, 0#64, 0#64, 0#64, 0#64, 0#64, 0#64, 0#64, 0#64, 0#64],
               buf := Vector.replicate 192 0#8, len := 0#64, wsel := w, dig0 := 0#64, dig1 := 0#64,
               dvalid := false, lc := .active, err := .ok }
    exec (.init 0b10#2 a b) s = .next (started .w128 a b) ∧
    exec (.init 0b01#2 a b) s = .next (started .w64 a a) ∧
    exec (.init 0b00#2 a b) s =
      .next (started .w32 (seedSelect Config.h32SeedMode .w32 a b).1 (seedSelect Config.h32SeedMode .w32 a b).2) ∧
    exec (.init 0b11#2 a b) s = .next { s with err := .invalidWidth, sticky := true }) ∧
  (∀ (s : State) (cmd : BitVec 32) (a b : Word) (rest : List HostEvent),
    s.inbox = .port (.command cmd a b) :: rest → cmd.extractLsb 3 0 = 1#4 → cmd.extractLsb 31 6 ≠ 0#26 →
      step s = .next { s with err := .illegalCommand, sticky := true, inbox := rest })

/-- R181, R182: the effective seeds of each width, under each value of `H32_SEED_MODE`; the two values differ only when
`seed1` is `2^32` or more. -/
def Obligations.SeedSelectByWidth : Prop :=
  ∀ (mode : SeedMode) (a b : Word),
    seedSelect mode .w128 a b = (a, b) ∧
    seedSelect mode .w64 a b = (a, a) ∧
    seedSelect .full64 .w32 a b = (a, a) ∧
    seedSelect .low32 .w32 a b = (BitVec.ofNat 64 (a.toNat % 2 ^ 32), BitVec.ofNat 64 (a.toNat % 2 ^ 32)) ∧
    (seedSelect .full64 .w32 a b = seedSelect .low32 .w32 a b ↔ a.toNat < 2 ^ 32)

/-- R143: UPDATE's word, its result and its errors: in `ACTIVE`, with a legal count and room, the bytes `OPA[8j+7:8j]` appended in
order; otherwise one error and no byte appended. A word with `OP = 0010` and a reserved bit set or a count above 8 is
`IllegalCommand`. -/
def Obligations.UpdateAppendsTheBeat : Prop :=
  (∀ (nb : BitVec 4) (a b : Word),
    encode (.update nb a b) = .command (BitVec.ofNat 32 (0x00000002 + nb.toNat * 2 ^ 8)) a b) ∧
  (∀ (s : State) (nb : BitVec 4) (a b : Word), nb.toNat ≤ 8 →
    (s.lc = .active → s.len.toNat + nb.toNat ≤ 2 ^ 64 - 1 →
      exec (.update nb a b) s =
        .next { (List.range nb.toNat).foldl (fun u j => appendByte u (a.extractLsb' (8 * j) 8)) s with err := .ok }) ∧
    (s.lc ≠ .active → exec (.update nb a b) s = .next { s with err := .invalidLifecycleUse, sticky := true }) ∧
    (s.lc = .active → 2 ^ 64 - 1 < s.len.toNat + nb.toNat →
      exec (.update nb a b) s = .next { s with err := .lengthOverflow, sticky := true })) ∧
  (∀ (s : State) (cmd : BitVec 32) (a b : Word) (rest : List HostEvent),
    s.inbox = .port (.command cmd a b) :: rest → cmd.extractLsb 3 0 = 2#4 →
    (cmd.extractLsb 31 12 ≠ 0#20 ∨ cmd.extractLsb 7 4 ≠ 0#4 ∨ 8 < (cmd.extractLsb 11 8).toNat) →
      step s = .next { s with err := .illegalCommand, sticky := true, inbox := rest })

/-- UPDATE's frame: `h`, `buf`, `len` and `err` alone change; `len` grows by the count; byte `j` of the beat stands at index
`rem(len + j)` and every other byte of `buf` is unchanged; `h` is unchanged when no flush point is reached. -/
def Obligations.UpdateFrame : Prop :=
  ∀ (s : State) (nb : BitVec 4) (a b : Word), nb.toNat ≤ 8 → s.lc = .active → s.len.toNat + nb.toNat ≤ 2 ^ 64 - 1 →
    ∃ t, exec (.update nb a b) s = .next t ∧
      t = { s with h := t.h, buf := t.buf, len := t.len, err := .ok } ∧
      t.len.toNat = s.len.toNat + nb.toNat ∧
      (∀ j, j < nb.toNat → t.buf.toList[rem (s.len + BitVec.ofNat 64 j)]? = some (lane a j)) ∧
      (∀ k, (∀ j, j < nb.toNat → k ≠ rem (s.len + BitVec.ofNat 64 j)) → t.buf.toList[k]? = s.buf.toList[k]?) ∧
      ((∀ m, s.len.toNat < m → m ≤ s.len.toNat + nb.toNat → ¬ (192 ≤ m ∧ m % 96 = 0)) → t.h = s.h)

/-- R144: APPEND stores the byte at `rem(len)`, counts it, and runs LONG_ENTRY (R145) when the length becomes 192 or FLUSH
(R146) when it becomes a later multiple of 96. -/
def Obligations.AppendFollowsTheFlushMachine : Prop :=
  ∀ (s : State) (b : Byte), s.len.toNat < 2 ^ 64 - 1 →
    let stored : State :=
      { s with buf := s.buf.setIfInBounds (rem s.len) b, len := BitVec.ofNat 64 (s.len.toNat + 1) }
    rem s.len < 192 ∧
    (s.len.toNat + 1 = 192 →
      appendByte s b =
        { stored with
          h := mix (blockWords (bufSlice stored 96 192))
                 (mix (blockWords (bufSlice stored 0 96)) (longInit s.h[0] s.h[1])) }) ∧
    (192 < s.len.toNat + 1 → (s.len.toNat + 1) % 96 = 0 →
      appendByte s b = { stored with h := mix (blockWords (bufSlice stored 0 96)) s.h }) ∧
    (s.len.toNat + 1 ≠ 192 → ¬ (192 < s.len.toNat + 1 ∧ (s.len.toNat + 1) % 96 = 0) → appendByte s b = stored)

/-- R155: an empty beat appends nothing in `ACTIVE` and is an error elsewhere, like any UPDATE. -/
def Obligations.EmptyBeat : Prop :=
  ∀ (s : State) (a b : Word),
    (s.lc = .active → exec (.update 0#4 a b) s = .next { s with err := .ok }) ∧
    (s.lc ≠ .active → exec (.update 0#4 a b) s = .next { s with err := .invalidLifecycleUse, sticky := true })

/-- R76: the operands a command ignores change nothing: both of NOP and FINAL, `OPB` of INIT at the narrow widths, `OPB` of
UPDATE and the lanes of `OPA` from `NB` on. -/
def Obligations.IgnoredOperandsChangeNothing : Prop :=
  ∀ (s : State) (a a' b b' : Word),
    exec (.nop a b) s = exec (.nop a' b') s ∧
    exec (.final a b) s = exec (.final a' b') s ∧
    (∀ w : BitVec 2, w ≠ 0b10#2 → exec (.init w a b) s = exec (.init w a b') s) ∧
    (∀ nb : BitVec 4, a.toNat % 2 ^ (8 * nb.toNat) = a'.toNat % 2 ^ (8 * nb.toNat) →
      exec (.update nb a b) s = exec (.update nb a' b') s)

/-- R153's source sentence: two sequences of beats that carry the same bytes lead from one state to the same state, and none of
their commands fails. -/
def Obligations.SplitsOfAMessageAgree : Prop :=
  ∀ (s : State) (xs ys : List Beat), xs ≠ [] → ys ≠ [] → (∀ x ∈ xs, x.1.toNat ≤ 8) → (∀ y ∈ ys, y.1.toNat ≤ 8) →
    beatsMessage xs = beatsMessage ys → s.lc = .active → s.len.toNat + (beatsMessage xs).length ≤ 2 ^ 64 - 1 →
    ∃ t, runAll (sending (xs.map fun x => encode (.update x.1 x.2 0#64)) s) = .next t ∧
      runAll (sending (ys.map fun y => encode (.update y.1 y.2 0#64)) s) = .next t ∧
      t.err = .ok ∧ t.sticky = s.sticky

/-- R147, R148, R149: FINAL's word; in `ACTIVE` it publishes the digest of the short path below 192 bytes and of the long path's end
from 192 on, and writes nothing else; in the other states it raises `InvalidLifecycleUse`, and a word with `OP = 0011` and
any of `CMD[31:4]` set is `IllegalCommand`. -/
def Obligations.FinalPublishesTheDigest : Prop :=
  (∀ a b : Word, encode (.final a b) = .command 0x00000003#32 a b) ∧
  (∀ (s : State) (a b : Word),
    let published (x1 x2 : Word) : State :=
      { s with dig0 := (formatDigest s.wsel (x1, x2)).1, dig1 := (formatDigest s.wsel (x1, x2)).2, dvalid := true,
               lc := .finalized, err := .ok }
    let r := s.len.toNat % 96
    let B := bufSlice s 0 r ++ zeros (95 - r) ++ [BitVec.ofNat 8 r]
    (s.lc = .active → s.len.toNat < 192 →
      exec (.final a b) s =
        .next (published (short (bufSlice s 0 s.len.toNat) s.h[0] s.h[1]).1
                         (short (bufSlice s 0 s.len.toNat) s.h[0] s.h[1]).2)) ∧
    (s.lc = .active → 192 ≤ s.len.toNat →
      exec (.final a b) s = .next (published (endMix (blockWords B) s.h)[0] (endMix (blockWords B) s.h)[1])) ∧
    (s.lc ≠ .active → exec (.final a b) s = .next { s with err := .invalidLifecycleUse, sticky := true })) ∧
  (∀ (s : State) (cmd : BitVec 32) (a b : Word) (rest : List HostEvent),
    s.inbox = .port (.command cmd a b) :: rest → cmd.extractLsb 3 0 = 3#4 → cmd.extractLsb 31 4 ≠ 0#28 →
      step s = .next { s with err := .illegalCommand, sticky := true, inbox := rest })

/-! ## The message a state holds, and whole hashes -/

/-- R34: the block invariant. INIT starts the empty message with the effective seeds; a successful UPDATE extends the message by
its bytes; NOP, RD, FINAL and every failing command keep it. -/
def Obligations.BlockInvariant : Prop :=
  (∀ (s : State) (w : BitVec 2) (width : Width) (a b : Word), widthOf w = some width →
    ∃ t, exec (.init w a b) s = .next t ∧
      HoldsMessage [] (seedSelect Config.h32SeedMode width a b).1 (seedSelect Config.h32SeedMode width a b).2 t) ∧
  (∀ (M : List Byte) (e1 e2 : Word) (s : State) (nb : BitVec 4) (a b : Word),
    HoldsMessage M e1 e2 s → s.lc = .active → nb.toNat ≤ 8 → M.length + nb.toNat ≤ 2 ^ 64 - 1 →
      ∃ t, exec (.update nb a b) s = .next t ∧ t.err = .ok ∧ HoldsMessage (M ++ beatBytes nb a) e1 e2 t) ∧
  (∀ (M : List Byte) (e1 e2 : Word) (i : Instr) (s t : State),
    HoldsMessage M e1 e2 s → exec i s = .next t →
    (∀ w a b, i = .init w a b → w = 0b11#2) → (∀ nb a b, i = .update nb a b → t.err ≠ .ok) →
      HoldsMessage M e1 e2 t)

/-- R148, R149, R118: FINAL in a state that holds a message publishes `Hash128` of it in the form its width gives. -/
def Obligations.FinalHashesTheHeldMessage : Prop :=
  ∀ (M : List Byte) (e1 e2 : Word) (s : State) (a b : Word), HoldsMessage M e1 e2 s → s.lc = .active →
    ∃ t, exec (.final a b) s = .next t ∧ (t.dig0, t.dig1) = formatDigest s.wsel (hash128 M e1 e2) ∧
      t.len.toNat = M.length ∧ t.dvalid = true ∧ t.lc = .finalized ∧ t.err = .ok ∧ t.sticky = s.sticky

/-- R153: chunk invariance. However a message is split into beats of 0 to 8 bytes, INIT at width 128, the beats and FINAL
leave `Hash128` of the message, from every state. -/
def Obligations.ChunkInvariance : Prop :=
  ∀ (s : State) (s1 s2 : Word) (beats : List Beat),
    (∀ x ∈ beats, x.1.toNat ≤ 8) → (beatsMessage beats).length ≤ 2 ^ 64 - 1 →
    ∃ t, runAll (sending (hashSequence 0b10#2 s1 s2 beats) s) = .next t ∧
      (t.dig0, t.dig1) = hash128 (beatsMessage beats) s1 s2 ∧
      t.len.toNat = (beatsMessage beats).length ∧ t.dvalid = true ∧ t.lc = .finalized ∧ t.err = .ok ∧
      t.sticky = s.sticky ∧ t.reads = s.reads

/-- R186, R158: after `hash.64 s, M` the digest is the first word of `Hash128(M, s, s)`. -/
def Obligations.OneShot64 : Prop :=
  ∀ (s : State) (k : Nat) (bytes : List Nat), k < 2 ^ 64 → (∀ x ∈ bytes, x < 256) → bytes.length ≤ 2 ^ 64 - 1 →
    ∃ ts t, assemble (.hash .w64 (some k) none bytes) = some ts ∧ runAll (sending ts s) = .next t ∧
      t.dig0 = (hash128 (bytes.map (BitVec.ofNat 8)) (BitVec.ofNat 64 k) (BitVec.ofNat 64 k)).1 ∧ t.dig1 = 0#64 ∧
      t.err = .ok ∧ t.dvalid = true

/-- R187: after `hash.32 s, M` the digest is the low half of the first word of `Hash128(M, t, t)`, where `t` is `s` under `FULL64`
and `s[31:0]` under `LOW32`. -/
def Obligations.OneShot32 : Prop :=
  ∀ (s : State) (k : Nat) (bytes : List Nat), k < 2 ^ 64 → (∀ x ∈ bytes, x < 256) → bytes.length ≤ 2 ^ 64 - 1 →
    let seed : Word :=
      match Config.h32SeedMode with
      | .full64 => BitVec.ofNat 64 k
      | .low32 => BitVec.ofNat 64 (k % 2 ^ 32)
    ∃ ts t, assemble (.hash .w32 (some k) none bytes) = some ts ∧ runAll (sending ts s) = .next t ∧
      t.dig0 = BitVec.ofNat 64 ((hash128 (bytes.map (BitVec.ofNat 8)) seed seed).1.toNat % 2 ^ 32) ∧ t.dig1 = 0#64 ∧
      t.err = .ok ∧ t.dvalid = true

/-- R188: the first digest word at width 128 with seeds `(s1, s2)` and at width 64 with seed `s1` are the same function at
`(s1, s2)` and `(s1, s1)`: equal when `s2 = s1`; and they differ for "abc" at `(1, 0)`. -/
def Obligations.WidthAsymmetry : Prop :=
  (∀ (s : State) (s1 s2 : Word) (beats : List Beat),
    (∀ x ∈ beats, x.1.toNat ≤ 8) → (beatsMessage beats).length ≤ 2 ^ 64 - 1 →
    ∃ t u, runAll (sending (hashSequence 0b10#2 s1 s2 beats) s) = .next t ∧
      runAll (sending (hashSequence 0b01#2 s1 0#64 beats) s) = .next u ∧
      t.dig0 = (hash128 (beatsMessage beats) s1 s2).1 ∧ u.dig0 = (hash128 (beatsMessage beats) s1 s1).1 ∧
      (s2 = s1 → t.dig0 = u.dig0)) ∧
  (hash128 [0x61, 0x62, 0x63] 1 0).1 ≠ (hash128 [0x61, 0x62, 0x63] 1 1).1

/-! ## Errors and the lifecycle -/

/-- R205, R202, R201: each command reports the first error that applies, in the order of R205, read off the bits of its word,
and 0 when none applies. -/
def Obligations.CommandsReportTheFirstError : Prop :=
  ∀ (s : State) (cmd : BitVec 32) (a b : Word) (rest : List HostEvent),
    s.inbox = .port (.command cmd a b) :: rest → ∃ t, step s = .next t ∧ t.err = firstError cmd s

/-- R206, R203: a command that fails writes `err` and `sticky` and nothing else. -/
def Obligations.FailedCommandsHaveNoPartialEffect : Prop :=
  ∀ (s t : State) (cmd : BitVec 32) (a b : Word) (rest : List HostEvent),
    s.inbox = .port (.command cmd a b) :: rest → step s = .next t → t.err ≠ .ok →
      t = { s with err := t.err, sticky := true, inbox := rest }

/-- R204: a command that completes writes `err <- 0` and leaves `sticky` unchanged. -/
def Obligations.SuccessLeavesSticky : Prop :=
  ∀ (s : State) (cmd : BitVec 32) (a b : Word) (rest : List HostEvent),
    s.inbox = .port (.command cmd a b) :: rest → firstError cmd s = .ok →
      ∃ t, step s = .next t ∧ t.err = .ok ∧ t.sticky = s.sticky

/-- R151: the lifecycle table: the next `lc` and the `err` written, for each state and each column. -/
def Obligations.LifecycleTable : Prop :=
  ∀ (s : State) (a b : Word),
    let goes (i : Instr) (lc : Lifecycle) (err : ErrCode) : Prop := ∃ t, exec i s = .next t ∧ t.lc = lc ∧ t.err = err
    goes (.nop a b) s.lc .ok ∧
    (∀ w : BitVec 2, w ≠ 0b11#2 → goes (.init w a b) .active .ok) ∧
    goes (.init 0b11#2 a b) s.lc .invalidWidth ∧
    (∀ nb : BitVec 4, nb.toNat ≤ 8 →
      (s.lc ≠ .active → goes (.update nb a b) s.lc .invalidLifecycleUse) ∧
      (s.lc = .active → s.len.toNat + nb.toNat ≤ 2 ^ 64 - 1 → goes (.update nb a b) .active .ok) ∧
      (s.lc = .active → 2 ^ 64 - 1 < s.len.toNat + nb.toNat → goes (.update nb a b) .active .lengthOverflow)) ∧
    (s.lc ≠ .active → goes (.final a b) s.lc .invalidLifecycleUse) ∧
    (s.lc = .active → goes (.final a b) .finalized .ok) ∧
    (∀ (cmd : BitVec 32) (rest : List HostEvent), s.inbox = .port (.command cmd a b) :: rest → illegalWord cmd →
      ∃ t, step s = .next t ∧ t.lc = s.lc ∧ t.err = .illegalCommand) ∧
    (∀ (x : Option Transaction) (rest : List HostEvent), s.inbox = .reset x :: rest →
      ∃ t, step s = .next t ∧ t.lc = .uninit)

/-- R157: after a FINAL, until the next INIT that succeeds, whatever else the host sends, the engine stays finalized with the digest
it published, and every further UPDATE or FINAL fails with `InvalidLifecycleUse`. -/
def Obligations.OneFinalPerInit : Prop :=
  ∀ (s : State), s.lc = .finalized →
    (∀ ts : List Transaction, (∀ tr ∈ ts, ∀ w a b, decode tr = .ok (.init w a b) → w = 0b11#2) →
      ∃ t, runAll (sending ts s) = .next t ∧ t.lc = .finalized ∧ t.dig0 = s.dig0 ∧ t.dig1 = s.dig1 ∧
        t.dvalid = s.dvalid ∧ t.len = s.len) ∧
    (∀ (nb : BitVec 4) (a b : Word), nb.toNat ≤ 8 →
      exec (.update nb a b) s = .next { s with err := .invalidLifecycleUse, sticky := true }) ∧
    (∀ a b : Word, exec (.final a b) s = .next { s with err := .invalidLifecycleUse, sticky := true })

/-- R152: filling-long never returns to filling-short before the next INIT (or reset), and `len` only grows. -/
def Obligations.FillingLongIsKept : Prop :=
  ∀ (s t : State), (∀ x rest, s.inbox ≠ .reset x :: rest) →
    (∀ tr rest w a b, s.inbox = .port tr :: rest → decode tr = .ok (.init w a b) → w = 0b11#2) →
    step s = .next t → s.len.toNat ≤ t.len.toNat ∧ (192 ≤ s.len.toNat → 192 ≤ t.len.toNat)

/-! ## Invariants and hidden state -/

/-- The registers' invariant (R22, R29, R31, R37, R40, R183) is kept by every step from every state that has it. -/
def Obligations.RegisterInvariantIsKept : Prop := ∀ s t : State, RegisterInv s → step s = .next t → RegisterInv t

/-- The registers' invariant holds right after reset. Its clause about `h` speaks of states after INIT only, so it does not rest
on the reset value the model chose for `h` (log entry 3). -/
def Obligations.RegisterInvariantAtReset : Prop := RegisterInv State.reset

/-- R38, R120, R22, U12, U13: hidden words and bytes no rule reads are never observed: two states a host cannot tell apart stay so
at every step, the values returned by reads included. -/
def Obligations.HiddenStateIsUnobservable : Prop :=
  ∀ s t s' : State, SameToHost s t → step s = .next s' → ∃ t', step t = .next t' ∧ SameToHost s' t'

/-- R40, U1: whatever `h` and `buf` hold after reset, the same host sequence returns the same reads and leaves the same visible
registers; the zeros the model chose for them (log entry 3) are not observed. -/
def Obligations.ResetContentsAreUnobservable : Prop :=
  ∀ (events : List HostEvent) (h : Vector Word 12) (buf : Vector Byte 192),
    ∃ t u, runAll { State.reset with inbox := events } = .next t ∧
      runAll { State.reset with inbox := events, h := h, buf := buf } = .next u ∧
      t.reads = u.reads ∧ status t = status u ∧ t.len = u.len ∧ t.dig0 = u.dig0 ∧ t.dig1 = u.dig1

/-! ## MixCore -/

/-- R101: Rot64 is the left rotation, for every amount in its domain; its example. -/
def Obligations.Rot64RotatesLeft : Prop :=
  (∀ (x : Word) (k : Nat), 1 ≤ k → k ≤ 63 →
    rot64 x k = (x <<< k ||| x >>> (64 - k)) ∧ ∀ i, i < 64 → (rot64 x k).getLsbD ((i + k) % 64) = x.getLsbD i) ∧
  rot64 0x0123456789ABCDEF#64 8 = 0x23456789ABCDEF01#64

/-- R102: ShortMix is the twelve written-out lines, run in order; zeros stay zeros; the rule's example. -/
def Obligations.ShortMixAsWrittenOut : Prop :=
  (∀ h0 h1 h2 h3 : Word, shortMix #v[h0, h1, h2, h3] =
    (let h2 := rot64 h2 50; let h2 := h2 + h3; let h0 := h0 ^^^ h2
     let h3 := rot64 h3 52; let h3 := h3 + h0; let h1 := h1 ^^^ h3
     let h0 := rot64 h0 30; let h0 := h0 + h1; let h2 := h2 ^^^ h0
     let h1 := rot64 h1 41; let h1 := h1 + h2; let h3 := h3 ^^^ h1
     let h2 := rot64 h2 54; let h2 := h2 + h3; let h0 := h0 ^^^ h2
     let h3 := rot64 h3 48; let h3 := h3 + h0; let h1 := h1 ^^^ h3
     let h0 := rot64 h0 38; let h0 := h0 + h1; let h2 := h2 ^^^ h0
     let h1 := rot64 h1 37; let h1 := h1 + h2; let h3 := h3 ^^^ h1
     let h2 := rot64 h2 62; let h2 := h2 + h3; let h0 := h0 ^^^ h2
     let h3 := rot64 h3 34; let h3 := h3 + h0; let h1 := h1 ^^^ h3
     let h0 := rot64 h0 5; let h0 := h0 + h1; let h2 := h2 ^^^ h0
     let h1 := rot64 h1 36; let h1 := h1 + h2; let h3 := h3 ^^^ h1
     #v[h0, h1, h2, h3])) ∧
  shortMix #v[0, 0, 0, 0] = #v[0, 0, 0, 0] ∧
  shortMix #v[1, 2, 3, 4] =
    #v[0x2BF7518BD9F16648#64, 0x9A082A6452E0D6F5#64, 0x8811513FD3EDB160#64, 0x03826F115D34E2BD#64]

/-- R103: ShortEnd is the eleven written-out lines, run in order; zeros stay zeros; the rule's example. -/
def Obligations.ShortEndAsWrittenOut : Prop :=
  (∀ h0 h1 h2 h3 : Word, shortEnd #v[h0, h1, h2, h3] =
    (let h3 := h3 ^^^ h2; let h2 := rot64 h2 15; let h3 := h3 + h2
     let h0 := h0 ^^^ h3; let h3 := rot64 h3 52; let h0 := h0 + h3
     let h1 := h1 ^^^ h0; let h0 := rot64 h0 26; let h1 := h1 + h0
     let h2 := h2 ^^^ h1; let h1 := rot64 h1 51; let h2 := h2 + h1
     let h3 := h3 ^^^ h2; let h2 := rot64 h2 28; let h3 := h3 + h2
     let h0 := h0 ^^^ h3; let h3 := rot64 h3 9; let h0 := h0 + h3
     let h1 := h1 ^^^ h0; let h0 := rot64 h0 47; let h1 := h1 + h0
     let h2 := h2 ^^^ h1; let h1 := rot64 h1 54; let h2 := h2 + h1
     let h3 := h3 ^^^ h2; let h2 := rot64 h2 32; let h3 := h3 + h2
     let h0 := h0 ^^^ h3; let h3 := rot64 h3 25; let h0 := h0 + h3
     let h1 := h1 ^^^ h0; let h0 := rot64 h0 63; let h1 := h1 + h0
     #v[h0, h1, h2, h3])) ∧
  shortEnd #v[0, 0, 0, 0] = #v[0, 0, 0, 0] ∧
  shortEnd #v[0, 0, 0xBD5B7DDFBD5B7DDE#64, 0xBD5B7DDFBD5B7DDE#64] =
    #v[0x232706FC6BF50919#64, 0x8B72EE65B4E851C7#64, 0x88D8E9628FB694AE#64, 0x015C99660E766A98#64]

/-- R111: Mix is the twelve written-out lines, run in order; a line's statements run in order too; zeros stay zeros; the rule's
example. -/
def Obligations.MixAsWrittenOut : Prop :=
  (∀ D S : Vector Word 12, mix D S =
    [fun (S : Vector Word 12) =>
       let S := setWord S 0 (S[0] + D[0]); let S := setWord S 2 (S[2] ^^^ S[10])
       let S := setWord S 11 (S[11] ^^^ S[0]); let S := setWord S 0 (rot64 S[0] 11)
       setWord S 11 (S[11] + S[1]),
     fun (S : Vector Word 12) =>
       let S := setWord S 1 (S[1] + D[1]); let S := setWord S 3 (S[3] ^^^ S[11])
       let S := setWord S 0 (S[0] ^^^ S[1]); let S := setWord S 1 (rot64 S[1] 32)
       setWord S 0 (S[0] + S[2]),
     fun (S : Vector Word 12) =>
       let S := setWord S 2 (S[2] + D[2]); let S := setWord S 4 (S[4] ^^^ S[0])
       let S := setWord S 1 (S[1] ^^^ S[2]); let S := setWord S 2 (rot64 S[2] 43)
       setWord S 1 (S[1] + S[3]),
     fun (S : Vector Word 12) =>
       let S := setWord S 3 (S[3] + D[3]); let S := setWord S 5 (S[5] ^^^ S[1])
       let S := setWord S 2 (S[2] ^^^ S[3]); let S := setWord S 3 (rot64 S[3] 31)
       setWord S 2 (S[2] + S[4]),
     fun (S : Vector Word 12) =>
       let S := setWord S 4 (S[4] + D[4]); let S := setWord S 6 (S[6] ^^^ S[2])
       let S := setWord S 3 (S[3] ^^^ S[4]); let S := setWord S 4 (rot64 S[4] 17)
       setWord S 3 (S[3] + S[5]),
     fun (S : Vector Word 12) =>
       let S := setWord S 5 (S[5] + D[5]); let S := setWord S 7 (S[7] ^^^ S[3])
       let S := setWord S 4 (S[4] ^^^ S[5]); let S := setWord S 5 (rot64 S[5] 28)
       setWord S 4 (S[4] + S[6]),
     fun (S : Vector Word 12) =>
       let S := setWord S 6 (S[6] + D[6]); let S := setWord S 8 (S[8] ^^^ S[4])
       let S := setWord S 5 (S[5] ^^^ S[6]); let S := setWord S 6 (rot64 S[6] 39)
       setWord S 5 (S[5] + S[7]),
     fun (S : Vector Word 12) =>
       let S := setWord S 7 (S[7] + D[7]); let S := setWord S 9 (S[9] ^^^ S[5])
       let S := setWord S 6 (S[6] ^^^ S[7]); let S := setWord S 7 (rot64 S[7] 57)
       setWord S 6 (S[6] + S[8]),
     fun (S : Vector Word 12) =>
       let S := setWord S 8 (S[8] + D[8]); let S := setWord S 10 (S[10] ^^^ S[6])
       let S := setWord S 7 (S[7] ^^^ S[8]); let S := setWord S 8 (rot64 S[8] 55)
       setWord S 7 (S[7] + S[9]),
     fun (S : Vector Word 12) =>
       let S := setWord S 9 (S[9] + D[9]); let S := setWord S 11 (S[11] ^^^ S[7])
       let S := setWord S 8 (S[8] ^^^ S[9]); let S := setWord S 9 (rot64 S[9] 54)
       setWord S 8 (S[8] + S[10]),
     fun (S : Vector Word 12) =>
       let S := setWord S 10 (S[10] + D[10]); let S := setWord S 0 (S[0] ^^^ S[8])
       let S := setWord S 9 (S[9] ^^^ S[10]); let S := setWord S 10 (rot64 S[10] 22)
       setWord S 9 (S[9] + S[11]),
     fun (S : Vector Word 12) =>
       let S := setWord S 11 (S[11] + D[11]); let S := setWord S 1 (S[1] ^^^ S[9])
       let S := setWord S 10 (S[10] ^^^ S[11]); let S := setWord S 11 (rot64 S[11] 46)
       setWord S 10 (S[10] + S[0])].foldl (fun S line => line S) S) ∧
  mix (Vector.replicate 12 0) (Vector.replicate 12 0) = Vector.replicate 12 0 ∧
  (mix (Vector.replicate 12 0) (longInit 0 0))[0] = 0x3A25E7500925E5D1#64 ∧
  (mix (Vector.replicate 12 0) (longInit 0 0))[1] = 0x44ABB6D47567AD57#64

/-- R112: EndPartial is the twelve written-out lines, run in order; a line's statements run in order too; zeros stay zeros; the
rule's example. -/
def Obligations.EndPartialAsWrittenOut : Prop :=
  (∀ H : Vector Word 12, endPartial H =
    [fun (H : Vector Word 12) =>
       let H := setWord H 11 (H[11] + H[1]); let H := setWord H 2 (H[2] ^^^ H[11])
       setWord H 1 (rot64 H[1] 44),
     fun (H : Vector Word 12) =>
       let H := setWord H 0 (H[0] + H[2]); let H := setWord H 3 (H[3] ^^^ H[0])
       setWord H 2 (rot64 H[2] 15),
     fun (H : Vector Word 12) =>
       let H := setWord H 1 (H[1] + H[3]); let H := setWord H 4 (H[4] ^^^ H[1])
       setWord H 3 (rot64 H[3] 34),
     fun (H : Vector Word 12) =>
       let H := setWord H 2 (H[2] + H[4]); let H := setWord H 5 (H[5] ^^^ H[2])
       setWord H 4 (rot64 H[4] 21),
     fun (H : Vector Word 12) =>
       let H := setWord H 3 (H[3] + H[5]); let H := setWord H 6 (H[6] ^^^ H[3])
       setWord H 5 (rot64 H[5] 38),
     fun (H : Vector Word 12) =>
       let H := setWord H 4 (H[4] + H[6]); let H := setWord H 7 (H[7] ^^^ H[4])
       setWord H 6 (rot64 H[6] 33),
     fun (H : Vector Word 12) =>
       let H := setWord H 5 (H[5] + H[7]); let H := setWord H 8 (H[8] ^^^ H[5])
       setWord H 7 (rot64 H[7] 10),
     fun (H : Vector Word 12) =>
       let H := setWord H 6 (H[6] + H[8]); let H := setWord H 9 (H[9] ^^^ H[6])
       setWord H 8 (rot64 H[8] 13),
     fun (H : Vector Word 12) =>
       let H := setWord H 7 (H[7] + H[9]); let H := setWord H 10 (H[10] ^^^ H[7])
       setWord H 9 (rot64 H[9] 38),
     fun (H : Vector Word 12) =>
       let H := setWord H 8 (H[8] + H[10]); let H := setWord H 11 (H[11] ^^^ H[8])
       setWord H 10 (rot64 H[10] 53),
     fun (H : Vector Word 12) =>
       let H := setWord H 9 (H[9] + H[11]); let H := setWord H 0 (H[0] ^^^ H[9])
       setWord H 11 (rot64 H[11] 42),
     fun (H : Vector Word 12) =>
       let H := setWord H 10 (H[10] + H[0]); let H := setWord H 1 (H[1] ^^^ H[10])
       setWord H 0 (rot64 H[0] 54)].foldl (fun H line => line H) H) ∧
  endPartial (Vector.replicate 12 0) = Vector.replicate 12 0 ∧
  (endPartial #v[1, 2, 3, 4, 5, 6, 7, 8, 9, 10, 11, 12])[0] = 0x65A08AB74275CE8A#64 ∧
  (endPartial #v[1, 2, 3, 4, 5, 6, 7, 8, 9, 10, 11, 12])[1] = 0x8E6B02C228ADA771#64

/-- R113: End adds the block into the state, word by word, then runs three EndPartial rounds; zeros stay zeros;
the rule's example, on 192 zero bytes. -/
def Obligations.EndAddsThenRunsThreeRounds : Prop :=
  (∀ D H A : Vector Word 12, (∀ i : Fin 12, A[i] = H[i] + D[i]) → endMix D H = endPartial (endPartial (endPartial A))) ∧
  endMix (Vector.replicate 12 0) (Vector.replicate 12 0) = Vector.replicate 12 0 ∧
  (endMix (Vector.replicate 12 0) (blockState (zeros 192) 0 0 2))[0] = 0xF8A749759C489872#64 ∧
  (endMix (Vector.replicate 12 0) (blockState (zeros 192) 0 0 2))[1] = 0x492AB512070E25C0#64

/-- R108: a tail of 1 to 15 bytes, padded with zeros to 16, enters `c` and `d` as two `LE64` words; the reference's switch, which
adds each tail byte at its place in `c` or `d`, gives the same. -/
def Obligations.TailSwitchEqualsPaddedAdds : Prop :=
  ∀ (tail : List Byte) (v : Vector Word 4), 1 ≤ tail.length → tail.length ≤ 15 →
    let T := tail ++ zeros (16 - tail.length)
    T.length = 16 ∧
    shortTail tail v = #v[v[0], v[1], v[2] + le64 (T.take 8), v[3] + le64 (T.drop 8)] ∧
    shortTail tail v =
      tail.zipIdx.foldl
        (fun (u : Vector Word 4) (bj : Byte × Nat) =>
          if bj.2 < 8 then #v[u[0], u[1], u[2] + (bj.1.setWidth 64 <<< (8 * bj.2)), u[3]]
          else #v[u[0], u[1], u[2], u[3] + (bj.1.setWidth 64 <<< (8 * (bj.2 - 8)))]) v

/-- R116: the final block has 96 bytes: the `r` bytes left over, then zeros, and `r` in the last byte. -/
def Obligations.FinalBlockLayout : Prop :=
  ∀ (M : List Byte), 192 ≤ M.length →
    let n := M.length / 96
    let r := M.length % 96
    let B := finalBlock (M.drop (96 * n))
    B.length = 96 ∧ (∀ i, i < r → B[i]? = M[96 * n + i]?) ∧ (∀ i, r ≤ i → i < 95 → B[i]? = some 0#8) ∧
      B[95]? = some (BitVec.ofNat 8 r)

/-- R14, R53: `LE64` of eight bytes is the sum `b0 + b1*2^8 + ... + b7*2^56`, and every word is `LE64` of its own bytes. -/
def Obligations.Le64IsLittleEndian : Prop :=
  (∀ b0 b1 b2 b3 b4 b5 b6 b7 : Byte,
    (le64 [b0, b1, b2, b3, b4, b5, b6, b7]).toNat =
      b0.toNat + b1.toNat * 2 ^ 8 + b2.toNat * 2 ^ 16 + b3.toNat * 2 ^ 24 + b4.toNat * 2 ^ 32 + b5.toNat * 2 ^ 40 +
        b6.toNat * 2 ^ 48 + b7.toNat * 2 ^ 56) ∧
  (∀ w : Word, le64 (le64Bytes w) = w ∧ (le64Bytes w).length = 8)

/-- R118: the threshold of 192 bytes is exact. -/
def Obligations.Hash128SelectsAtTheThreshold : Prop :=
  ∀ (M : List Byte) (s1 s2 : Word),
    (M.length < 192 → hash128 M s1 s2 = short M s1 s2) ∧ (192 ≤ M.length → hash128 M s1 s2 = long M s1 s2)

/-! ## The digest's form -/

/-- R183: the output of each width. -/
def Obligations.FormatByWidth : Prop :=
  ∀ x1 x2 : Word,
    formatDigest .w128 (x1, x2) = (x1, x2) ∧ formatDigest .w64 (x1, x2) = (x1, 0#64) ∧
    formatDigest .w32 (x1, x2) = (BitVec.ofNat 64 (x1.toNat % 2 ^ 32), 0#64)

/-- R184, R185: the digest as bytes: 4, 8 or 16 of them, each half least significant byte first. -/
def Obligations.DigestBytesAreLittleEndian : Prop :=
  ∀ s : State,
    (digestBytes s).length = digestLength s.wsel ∧
    (∀ j, j < 8 → j < digestLength s.wsel → (digestBytes s)[j]? = some (s.dig0.extractLsb' (8 * j) 8)) ∧
    (∀ j, 8 ≤ j → j < digestLength s.wsel → (digestBytes s)[j]? = some (s.dig1.extractLsb' (8 * (j - 8)) 8)) ∧
    digestLength .w32 = 4 ∧ digestLength .w64 = 8 ∧ digestLength .w128 = 16

/-! ## The assembler, the host and the platform -/

/-- R83: the words of each line of the syntax table, for every operand that fits its field. -/
def Obligations.AssembledWords : Prop :=
  assemble .nop = some [.command 0x00000000#32 0 0] ∧
  assemble .final = some [.command 0x00000003#32 0 0] ∧
  (∀ k1 k2 : Nat, k1 < 2 ^ 64 → k2 < 2 ^ 64 →
    assemble (.init .w32 (some k1) none) = some [.command 0x00000001#32 (BitVec.ofNat 64 k1) 0] ∧
    assemble (.init .w64 (some k1) none) = some [.command 0x00000011#32 (BitVec.ofNat 64 k1) 0] ∧
    assemble (.init .w128 (some k1) (some k2)) =
      some [.command 0x00000021#32 (BitVec.ofNat 64 k1) (BitVec.ofNat 64 k2)]) ∧
  (∀ n w : Nat, n ≤ 8 → w < 2 ^ 64 →
    assemble (.update n w) = some [.command (BitVec.ofNat 32 (0x00000002 + n * 2 ^ 8)) (BitVec.ofNat 64 w) 0])

/-- R85: `update.bytes` expands to `ceil(k / 8)` UPDATE beats that carry the bytes in order, all full but the last, each data word
the `LE64` of its bytes padded with zeros. -/
def Obligations.UpdateBytesExpansion : Prop :=
  ∀ bs : List Byte, ∃ beats : List Beat,
    beatsOf bs = beats.map (fun x => encode (.update x.1 x.2 0#64)) ∧ beats.length = (bs.length + 7) / 8 ∧
    beatsMessage beats = bs ∧ (∀ x ∈ beats.dropLast, x.1 = 8#4) ∧
    ∀ x ∈ beats, 1 ≤ x.1.toNat ∧ x.1.toNat ≤ 8 ∧ x.2 = le64 (beatBytes x.1 x.2 ++ zeros (8 - x.1.toNat))

/-- R189, R54: the host's SeedCodec: an absent seed is 0, an integer in range is itself, an 8-byte buffer is its `LE64`, anything else
is `InvalidSeedEncoding`; the 8-byte little-endian encoding of `k` gives the field `k` gives. It is outside the engine
(log entry 16). -/
def Obligations.SeedCodecContract : Prop :=
  seedCodec .absent = .ok 0#64 ∧
  (∀ k : Nat, k ≤ 2 ^ 64 - 1 →
    seedCodec (.integer k) = .ok (BitVec.ofNat 64 k) ∧
    seedCodec (.buffer (le64Bytes (BitVec.ofNat 64 k))) = seedCodec (.integer k)) ∧
  (∀ k : Int, (k < 0 ∨ 2 ^ 64 - 1 < k) → seedCodec (.integer k) = .error .invalidSeedEncoding) ∧
  (∀ b : List Byte, b.length = 8 → seedCodec (.buffer b) = .ok (le64 b)) ∧
  (∀ b : List Byte, b.length ≠ 8 → seedCodec (.buffer b) = .error .invalidSeedEncoding)

/-- R41, R214: a step of one engine of a platform is that engine's own step and leaves every other engine as it was. A platform as a
list of states is the model's choice (log entry 14). -/
def Obligations.EnginesShareNothing : Prop :=
  ∀ (p : List State) (k : Nat) (s : State), p[k]? = some s →
    ∃ t q, step s = .next t ∧ stepEngine k p = .next q ∧ q[k]? = some t ∧ ∀ j, j ≠ k → q[j]? = p[j]?
end

