-- ==== Sys2Proof/Laws/Decode.lean ====
section
/-! SUPPORT. The decoder read as arithmetic on the command word, once, so that no later proof unfolds its bit fields. -/

namespace Sys2Proof

/-- A field of the command word as a number. -/
theorem cmdField_toNat (cmd : BitVec 32) (hi lo : Nat) :
    (cmdField cmd hi lo).toNat = cmd.toNat / 2 ^ lo % 2 ^ (hi - lo + 1) := by
  simp [cmdField, BitVec.extractLsb, BitVec.extractLsb'_toNat, Nat.shiftRight_eq_div_pow]

/-- A field equals a numeral exactly when its number does. -/
theorem bitVec_eq_ofNat_iff {n : Nat} (x : BitVec n) (k : Nat) (h : k < 2 ^ n) : x = BitVec.ofNat n k ↔ x.toNat = k := by
  constructor
  · rintro rfl
    simp [Nat.mod_eq_of_lt h]
  · intro h'
    apply BitVec.eq_of_toNat_eq
    simp [h', Nat.mod_eq_of_lt h]

/-- All that the decoder does, on the word's number. -/
theorem decodeCommand_eq (cmd : BitVec 32) (a b : Word) :
    decodeCommand cmd a b =
      (if cmd.toNat % 16 = 0 then
        if cmd.toNat / 16 ≠ 0 then .error .reservedBits else .ok (.nop a b)
      else if cmd.toNat % 16 = 1 then
        if cmd.toNat / 64 ≠ 0 then .error .reservedBits else .ok (.init (cmdField cmd 5 4) a b)
      else if cmd.toNat % 16 = 2 then
        if cmd.toNat / 4096 ≠ 0 ∨ cmd.toNat / 16 % 16 ≠ 0 then .error .reservedBits
        else if 8 < cmd.toNat / 256 % 16 then .error .byteCount
        else .ok (.update (cmdField cmd 11 8) a b)
      else if cmd.toNat % 16 = 3 then
        if cmd.toNat / 16 ≠ 0 then .error .reservedBits else .ok (.final a b)
      else .error .reservedOpcode) := by
  have hlt := cmd.isLt
  have e0 : cmdField cmd 3 0 = 0b0000#4 ↔ cmd.toNat % 16 = 0 := by
    rw [bitVec_eq_ofNat_iff _ _ (by decide), cmdField_toNat]; norm_num
  have e1 : cmdField cmd 3 0 = 0b0001#4 ↔ cmd.toNat % 16 = 1 := by
    rw [bitVec_eq_ofNat_iff _ _ (by decide), cmdField_toNat]; norm_num
  have e2 : cmdField cmd 3 0 = 0b0010#4 ↔ cmd.toNat % 16 = 2 := by
    rw [bitVec_eq_ofNat_iff _ _ (by decide), cmdField_toNat]; norm_num
  have e3 : cmdField cmd 3 0 = 0b0011#4 ↔ cmd.toNat % 16 = 3 := by
    rw [bitVec_eq_ofNat_iff _ _ (by decide), cmdField_toNat]; norm_num
  have r4 : cmdField cmd 31 4 = 0#28 ↔ cmd.toNat / 16 = 0 := by
    rw [bitVec_eq_ofNat_iff _ _ (by decide), cmdField_toNat]; norm_num; omega
  have r6 : cmdField cmd 31 6 = 0#26 ↔ cmd.toNat / 64 = 0 := by
    rw [bitVec_eq_ofNat_iff _ _ (by decide), cmdField_toNat]; norm_num; omega
  have r12 : cmdField cmd 31 12 = 0#20 ↔ cmd.toNat / 4096 = 0 := by
    rw [bitVec_eq_ofNat_iff _ _ (by decide), cmdField_toNat]; norm_num; omega
  have r7 : cmdField cmd 7 4 = 0#4 ↔ cmd.toNat / 16 % 16 = 0 := by
    rw [bitVec_eq_ofNat_iff _ _ (by decide), cmdField_toNat]; norm_num
  have nb : (cmdField cmd 11 8).toNat = cmd.toNat / 256 % 16 := by rw [cmdField_toNat]; norm_num
  simp only [decodeCommand, e0, e1, e2, e3, r4, r6, r12, r7, nb, Config.beatBytes, ne_eq]

/-- The word of an INIT as a number (R75). -/
theorem commandWord_init_toNat (w : BitVec 2) (a b : Word) :
    (commandWord (.init w a b)).toNat = 1 + 16 * w.toNat := by
  have h : ∀ w : BitVec 2, (0x00000001#32 ||| (w.setWidth 32 <<< 4)).toNat = 1 + 16 * w.toNat := by decide
  exact h w

/-- The word of an UPDATE as a number (R75). -/
theorem commandWord_update_toNat (nb : BitVec 4) (a b : Word) :
    (commandWord (.update nb a b)).toNat = 2 + 256 * nb.toNat := by
  have h : ∀ nb : BitVec 4, (0x00000002#32 ||| (nb.setWidth 32 <<< 8)).toNat = 2 + 256 * nb.toNat := by decide
  exact h nb

end Sys2Proof
end

