-- ==== Sys2Proof/Laws/PerInstr.lean ====
section
/-! SUPPORT. One family of laws with one lemma per constructor of `Instr`: the row of the table of 30_encoding.md R75 that
an instruction's command word stands in. -/

namespace Sys2Proof.Laws.MatchMask

/-- The transaction of a command carries both operands whole and a word with `(CMD & mask) = match` for its row of R75; the
transaction of a read is its selector (R81). -/
def Statement : Instr → Prop
  | .nop a b => ∃ cmd, encode (.nop a b) = .command cmd a b ∧ cmd &&& 0xFFFFFFFF#32 = 0x00000000#32
  | .init w a b => ∃ cmd, encode (.init w a b) = .command cmd a b ∧ cmd &&& 0xFFFFFFCF#32 = 0x00000001#32
  | .update nb a b => ∃ cmd, encode (.update nb a b) = .command cmd a b ∧ cmd &&& 0xFFFFF0FF#32 = 0x00000002#32
  | .final a b => ∃ cmd, encode (.final a b) = .command cmd a b ∧ cmd &&& 0xFFFFFFFF#32 = 0x00000003#32
  | .rd sel => encode (.rd sel) = .read sel

theorem nop (a b : Word) : Statement (.nop a b) := ⟨0x00000000#32, rfl, by decide⟩

theorem init (w : BitVec 2) (a b : Word) : Statement (.init w a b) :=
  have word_mask : ∀ w : BitVec 2, (0x00000001#32 ||| (w.setWidth 32 <<< 4)) &&& 0xFFFFFFCF#32 = 0x00000001#32 := by
    decide
  ⟨_, rfl, word_mask w⟩

theorem update (nb : BitVec 4) (a b : Word) : Statement (.update nb a b) :=
  have word_mask : ∀ nb : BitVec 4, (0x00000002#32 ||| (nb.setWidth 32 <<< 8)) &&& 0xFFFFF0FF#32 = 0x00000002#32 := by
    decide
  ⟨_, rfl, word_mask nb⟩

theorem final (a b : Word) : Statement (.final a b) := ⟨0x00000003#32, rfl, by decide⟩

theorem rd (sel : BitVec 3) : Statement (.rd sel) := rfl

end Sys2Proof.Laws.MatchMask
end

