-- ==== Sys2Proof/Laws/State.lean ====
section
/-! SUPPORT. One lemma per field per update of State, so that no later proof unfolds a record update. -/

namespace Sys2Proof.Machine

/-! ## raiseError -/

@[simp] theorem raiseError_h (e : ErrCode) (s : State) : (raiseError e s).h = s.h := rfl
@[simp] theorem raiseError_buf (e : ErrCode) (s : State) : (raiseError e s).buf = s.buf := rfl
@[simp] theorem raiseError_len (e : ErrCode) (s : State) : (raiseError e s).len = s.len := rfl
@[simp] theorem raiseError_lc (e : ErrCode) (s : State) : (raiseError e s).lc = s.lc := rfl
@[simp] theorem raiseError_wsel (e : ErrCode) (s : State) : (raiseError e s).wsel = s.wsel := rfl
@[simp] theorem raiseError_dig0 (e : ErrCode) (s : State) : (raiseError e s).dig0 = s.dig0 := rfl
@[simp] theorem raiseError_dig1 (e : ErrCode) (s : State) : (raiseError e s).dig1 = s.dig1 := rfl
@[simp] theorem raiseError_dvalid (e : ErrCode) (s : State) : (raiseError e s).dvalid = s.dvalid := rfl
@[simp] theorem raiseError_err (e : ErrCode) (s : State) : (raiseError e s).err = e := rfl
@[simp] theorem raiseError_sticky (e : ErrCode) (s : State) : (raiseError e s).sticky = true := rfl
@[simp] theorem raiseError_inbox (e : ErrCode) (s : State) : (raiseError e s).inbox = s.inbox := rfl
@[simp] theorem raiseError_reads (e : ErrCode) (s : State) : (raiseError e s).reads = s.reads := rfl

/-! ## complete -/

@[simp] theorem complete_h (s : State) : (complete s).h = s.h := rfl
@[simp] theorem complete_buf (s : State) : (complete s).buf = s.buf := rfl
@[simp] theorem complete_len (s : State) : (complete s).len = s.len := rfl
@[simp] theorem complete_lc (s : State) : (complete s).lc = s.lc := rfl
@[simp] theorem complete_wsel (s : State) : (complete s).wsel = s.wsel := rfl
@[simp] theorem complete_dig0 (s : State) : (complete s).dig0 = s.dig0 := rfl
@[simp] theorem complete_dig1 (s : State) : (complete s).dig1 = s.dig1 := rfl
@[simp] theorem complete_dvalid (s : State) : (complete s).dvalid = s.dvalid := rfl
@[simp] theorem complete_err (s : State) : (complete s).err = .ok := rfl
@[simp] theorem complete_sticky (s : State) : (complete s).sticky = s.sticky := rfl
@[simp] theorem complete_inbox (s : State) : (complete s).inbox = s.inbox := rfl
@[simp] theorem complete_reads (s : State) : (complete s).reads = s.reads := rfl

/-! ## startHash -/

@[simp] theorem startHash_h (w : Width) (e : Word × Word) (s : State) :
    (startHash w e s).h = #v[e.1, e.2, 0#64, 0#64, 0#64, 0#64, 0#64, 0#64, 0#64, 0#64, 0#64, 0#64] := rfl
@[simp] theorem startHash_buf (w : Width) (e : Word × Word) (s : State) :
    (startHash w e s).buf = Vector.replicate 192 0#8 := rfl
@[simp] theorem startHash_len (w : Width) (e : Word × Word) (s : State) : (startHash w e s).len = 0#64 := rfl
@[simp] theorem startHash_lc (w : Width) (e : Word × Word) (s : State) : (startHash w e s).lc = .active := rfl
@[simp] theorem startHash_wsel (w : Width) (e : Word × Word) (s : State) : (startHash w e s).wsel = w := rfl
@[simp] theorem startHash_dig0 (w : Width) (e : Word × Word) (s : State) : (startHash w e s).dig0 = 0#64 := rfl
@[simp] theorem startHash_dig1 (w : Width) (e : Word × Word) (s : State) : (startHash w e s).dig1 = 0#64 := rfl
@[simp] theorem startHash_dvalid (w : Width) (e : Word × Word) (s : State) : (startHash w e s).dvalid = false := rfl
@[simp] theorem startHash_err (w : Width) (e : Word × Word) (s : State) : (startHash w e s).err = s.err := rfl
@[simp] theorem startHash_sticky (w : Width) (e : Word × Word) (s : State) :
    (startHash w e s).sticky = s.sticky := rfl
@[simp] theorem startHash_inbox (w : Width) (e : Word × Word) (s : State) : (startHash w e s).inbox = s.inbox := rfl
@[simp] theorem startHash_reads (w : Width) (e : Word × Word) (s : State) : (startHash w e s).reads = s.reads := rfl

/-! ## publishDigest -/

@[simp] theorem publishDigest_h (x : Word × Word) (s : State) : (publishDigest x s).h = s.h := rfl
@[simp] theorem publishDigest_buf (x : Word × Word) (s : State) : (publishDigest x s).buf = s.buf := rfl
@[simp] theorem publishDigest_len (x : Word × Word) (s : State) : (publishDigest x s).len = s.len := rfl
@[simp] theorem publishDigest_lc (x : Word × Word) (s : State) : (publishDigest x s).lc = .finalized := rfl
@[simp] theorem publishDigest_wsel (x : Word × Word) (s : State) : (publishDigest x s).wsel = s.wsel := rfl
@[simp] theorem publishDigest_dig0 (x : Word × Word) (s : State) :
    (publishDigest x s).dig0 = (formatDigest s.wsel x).1 := rfl
@[simp] theorem publishDigest_dig1 (x : Word × Word) (s : State) :
    (publishDigest x s).dig1 = (formatDigest s.wsel x).2 := rfl
@[simp] theorem publishDigest_dvalid (x : Word × Word) (s : State) : (publishDigest x s).dvalid = true := rfl
@[simp] theorem publishDigest_err (x : Word × Word) (s : State) : (publishDigest x s).err = s.err := rfl
@[simp] theorem publishDigest_sticky (x : Word × Word) (s : State) : (publishDigest x s).sticky = s.sticky := rfl
@[simp] theorem publishDigest_inbox (x : Word × Word) (s : State) : (publishDigest x s).inbox = s.inbox := rfl
@[simp] theorem publishDigest_reads (x : Word × Word) (s : State) : (publishDigest x s).reads = s.reads := rfl

/-! ## returnRead -/

@[simp] theorem returnRead_h (v : Word) (s : State) : (returnRead v s).h = s.h := rfl
@[simp] theorem returnRead_buf (v : Word) (s : State) : (returnRead v s).buf = s.buf := rfl
@[simp] theorem returnRead_len (v : Word) (s : State) : (returnRead v s).len = s.len := rfl
@[simp] theorem returnRead_lc (v : Word) (s : State) : (returnRead v s).lc = s.lc := rfl
@[simp] theorem returnRead_wsel (v : Word) (s : State) : (returnRead v s).wsel = s.wsel := rfl
@[simp] theorem returnRead_dig0 (v : Word) (s : State) : (returnRead v s).dig0 = s.dig0 := rfl
@[simp] theorem returnRead_dig1 (v : Word) (s : State) : (returnRead v s).dig1 = s.dig1 := rfl
@[simp] theorem returnRead_dvalid (v : Word) (s : State) : (returnRead v s).dvalid = s.dvalid := rfl
@[simp] theorem returnRead_err (v : Word) (s : State) : (returnRead v s).err = s.err := rfl
@[simp] theorem returnRead_sticky (v : Word) (s : State) : (returnRead v s).sticky = s.sticky := rfl
@[simp] theorem returnRead_inbox (v : Word) (s : State) : (returnRead v s).inbox = s.inbox := rfl
@[simp] theorem returnRead_reads (v : Word) (s : State) : (returnRead v s).reads = s.reads ++ [v] := rfl

/-! ## takeEvent -/

@[simp] theorem takeEvent_h (rest : List HostEvent) (s : State) : (takeEvent rest s).h = s.h := rfl
@[simp] theorem takeEvent_buf (rest : List HostEvent) (s : State) : (takeEvent rest s).buf = s.buf := rfl
@[simp] theorem takeEvent_len (rest : List HostEvent) (s : State) : (takeEvent rest s).len = s.len := rfl
@[simp] theorem takeEvent_lc (rest : List HostEvent) (s : State) : (takeEvent rest s).lc = s.lc := rfl
@[simp] theorem takeEvent_wsel (rest : List HostEvent) (s : State) : (takeEvent rest s).wsel = s.wsel := rfl
@[simp] theorem takeEvent_dig0 (rest : List HostEvent) (s : State) : (takeEvent rest s).dig0 = s.dig0 := rfl
@[simp] theorem takeEvent_dig1 (rest : List HostEvent) (s : State) : (takeEvent rest s).dig1 = s.dig1 := rfl
@[simp] theorem takeEvent_dvalid (rest : List HostEvent) (s : State) : (takeEvent rest s).dvalid = s.dvalid := rfl
@[simp] theorem takeEvent_err (rest : List HostEvent) (s : State) : (takeEvent rest s).err = s.err := rfl
@[simp] theorem takeEvent_sticky (rest : List HostEvent) (s : State) : (takeEvent rest s).sticky = s.sticky := rfl
@[simp] theorem takeEvent_inbox (rest : List HostEvent) (s : State) : (takeEvent rest s).inbox = rest := rfl
@[simp] theorem takeEvent_reads (rest : List HostEvent) (s : State) : (takeEvent rest s).reads = s.reads := rfl

/-! ## offer -/

@[simp] theorem offer_h (t : Transaction) (s : State) : (offer t s).h = s.h := rfl
@[simp] theorem offer_buf (t : Transaction) (s : State) : (offer t s).buf = s.buf := rfl
@[simp] theorem offer_len (t : Transaction) (s : State) : (offer t s).len = s.len := rfl
@[simp] theorem offer_lc (t : Transaction) (s : State) : (offer t s).lc = s.lc := rfl
@[simp] theorem offer_wsel (t : Transaction) (s : State) : (offer t s).wsel = s.wsel := rfl
@[simp] theorem offer_dig0 (t : Transaction) (s : State) : (offer t s).dig0 = s.dig0 := rfl
@[simp] theorem offer_dig1 (t : Transaction) (s : State) : (offer t s).dig1 = s.dig1 := rfl
@[simp] theorem offer_dvalid (t : Transaction) (s : State) : (offer t s).dvalid = s.dvalid := rfl
@[simp] theorem offer_err (t : Transaction) (s : State) : (offer t s).err = s.err := rfl
@[simp] theorem offer_sticky (t : Transaction) (s : State) : (offer t s).sticky = s.sticky := rfl
@[simp] theorem offer_inbox (t : Transaction) (s : State) : (offer t s).inbox = .port t :: s.inbox := rfl
@[simp] theorem offer_reads (t : Transaction) (s : State) : (offer t s).reads = s.reads := rfl

/-! ## storeByte -/

@[simp] theorem storeByte_h (s : State) (b : Byte) : (storeByte s b).h = s.h := rfl
@[simp] theorem storeByte_buf (s : State) (b : Byte) : (storeByte s b).buf = s.buf.setIfInBounds (rem s.len) b := rfl
@[simp] theorem storeByte_len (s : State) (b : Byte) : (storeByte s b).len = s.len + 1 := rfl
@[simp] theorem storeByte_lc (s : State) (b : Byte) : (storeByte s b).lc = s.lc := rfl
@[simp] theorem storeByte_wsel (s : State) (b : Byte) : (storeByte s b).wsel = s.wsel := rfl
@[simp] theorem storeByte_dig0 (s : State) (b : Byte) : (storeByte s b).dig0 = s.dig0 := rfl
@[simp] theorem storeByte_dig1 (s : State) (b : Byte) : (storeByte s b).dig1 = s.dig1 := rfl
@[simp] theorem storeByte_dvalid (s : State) (b : Byte) : (storeByte s b).dvalid = s.dvalid := rfl
@[simp] theorem storeByte_err (s : State) (b : Byte) : (storeByte s b).err = s.err := rfl
@[simp] theorem storeByte_sticky (s : State) (b : Byte) : (storeByte s b).sticky = s.sticky := rfl
@[simp] theorem storeByte_inbox (s : State) (b : Byte) : (storeByte s b).inbox = s.inbox := rfl
@[simp] theorem storeByte_reads (s : State) (b : Byte) : (storeByte s b).reads = s.reads := rfl

/-! ## longEntry -/

@[simp] theorem longEntry_h (s : State) :
    (longEntry s).h = mix (blockWords (bufSlice s 96 192)) (mix (blockWords (bufSlice s 0 96)) (longInit s.h[0] s.h[1])) := rfl
@[simp] theorem longEntry_buf (s : State) : (longEntry s).buf = s.buf := rfl
@[simp] theorem longEntry_len (s : State) : (longEntry s).len = s.len := rfl
@[simp] theorem longEntry_lc (s : State) : (longEntry s).lc = s.lc := rfl
@[simp] theorem longEntry_wsel (s : State) : (longEntry s).wsel = s.wsel := rfl
@[simp] theorem longEntry_dig0 (s : State) : (longEntry s).dig0 = s.dig0 := rfl
@[simp] theorem longEntry_dig1 (s : State) : (longEntry s).dig1 = s.dig1 := rfl
@[simp] theorem longEntry_dvalid (s : State) : (longEntry s).dvalid = s.dvalid := rfl
@[simp] theorem longEntry_err (s : State) : (longEntry s).err = s.err := rfl
@[simp] theorem longEntry_sticky (s : State) : (longEntry s).sticky = s.sticky := rfl
@[simp] theorem longEntry_inbox (s : State) : (longEntry s).inbox = s.inbox := rfl
@[simp] theorem longEntry_reads (s : State) : (longEntry s).reads = s.reads := rfl

/-! ## flush -/

@[simp] theorem flush_h (s : State) : (flush s).h = mix (blockWords (bufSlice s 0 96)) s.h := rfl
@[simp] theorem flush_buf (s : State) : (flush s).buf = s.buf := rfl
@[simp] theorem flush_len (s : State) : (flush s).len = s.len := rfl
@[simp] theorem flush_lc (s : State) : (flush s).lc = s.lc := rfl
@[simp] theorem flush_wsel (s : State) : (flush s).wsel = s.wsel := rfl
@[simp] theorem flush_dig0 (s : State) : (flush s).dig0 = s.dig0 := rfl
@[simp] theorem flush_dig1 (s : State) : (flush s).dig1 = s.dig1 := rfl
@[simp] theorem flush_dvalid (s : State) : (flush s).dvalid = s.dvalid := rfl
@[simp] theorem flush_err (s : State) : (flush s).err = s.err := rfl
@[simp] theorem flush_sticky (s : State) : (flush s).sticky = s.sticky := rfl
@[simp] theorem flush_inbox (s : State) : (flush s).inbox = s.inbox := rfl
@[simp] theorem flush_reads (s : State) : (flush s).reads = s.reads := rfl

/-! ## sending -/

@[simp] theorem sending_h (ts : List Transaction) (s : State) : (sending ts s).h = s.h := rfl
@[simp] theorem sending_buf (ts : List Transaction) (s : State) : (sending ts s).buf = s.buf := rfl
@[simp] theorem sending_len (ts : List Transaction) (s : State) : (sending ts s).len = s.len := rfl
@[simp] theorem sending_lc (ts : List Transaction) (s : State) : (sending ts s).lc = s.lc := rfl
@[simp] theorem sending_wsel (ts : List Transaction) (s : State) : (sending ts s).wsel = s.wsel := rfl
@[simp] theorem sending_dig0 (ts : List Transaction) (s : State) : (sending ts s).dig0 = s.dig0 := rfl
@[simp] theorem sending_dig1 (ts : List Transaction) (s : State) : (sending ts s).dig1 = s.dig1 := rfl
@[simp] theorem sending_dvalid (ts : List Transaction) (s : State) : (sending ts s).dvalid = s.dvalid := rfl
@[simp] theorem sending_err (ts : List Transaction) (s : State) : (sending ts s).err = s.err := rfl
@[simp] theorem sending_sticky (ts : List Transaction) (s : State) : (sending ts s).sticky = s.sticky := rfl
@[simp] theorem sending_inbox (ts : List Transaction) (s : State) : (sending ts s).inbox = ts.map .port := rfl
@[simp] theorem sending_reads (ts : List Transaction) (s : State) : (sending ts s).reads = s.reads := rfl

/-! ## resetEngine -/

@[simp] theorem resetEngine_h (s : State) : (resetEngine s).h = Vector.replicate 12 0#64 := rfl
@[simp] theorem resetEngine_buf (s : State) : (resetEngine s).buf = Vector.replicate 192 0#8 := rfl
@[simp] theorem resetEngine_len (s : State) : (resetEngine s).len = 0#64 := rfl
@[simp] theorem resetEngine_lc (s : State) : (resetEngine s).lc = .uninit := rfl
@[simp] theorem resetEngine_wsel (s : State) : (resetEngine s).wsel = .w128 := rfl
@[simp] theorem resetEngine_dig0 (s : State) : (resetEngine s).dig0 = 0#64 := rfl
@[simp] theorem resetEngine_dig1 (s : State) : (resetEngine s).dig1 = 0#64 := rfl
@[simp] theorem resetEngine_dvalid (s : State) : (resetEngine s).dvalid = false := rfl
@[simp] theorem resetEngine_err (s : State) : (resetEngine s).err = .ok := rfl
@[simp] theorem resetEngine_sticky (s : State) : (resetEngine s).sticky = false := rfl
@[simp] theorem resetEngine_inbox (s : State) : (resetEngine s).inbox = s.inbox := rfl
@[simp] theorem resetEngine_reads (s : State) : (resetEngine s).reads = s.reads := rfl

end Sys2Proof.Machine
end

