-- ==== Sys2Proof/Laws/StreamBuffer.lean ====
section
/-! SUPPORT. What the StreamBuffer's operations do, once: APPEND and its frame, the message a state holds after it, and
the hash FINAL computes from a state that holds a message. -/

namespace Sys2Proof.Machine

/-! ## Slices -/

@[simp] theorem slice_zero (M : List Byte) (n : Nat) : slice M 0 n = M.take n := by simp [slice]

theorem slice_append_left (M N : List Byte) {a b : Nat} (h : b ≤ M.length) : slice (M ++ N) a b = slice M a b := by
  rcases Nat.le_total a b with hab | hab
  · simp only [slice]
    rw [List.drop_append_of_le_length (by omega), List.take_append_of_le_length (by simp; omega)]
  · have : b - a = 0 := by omega
    simp [slice, this]

@[simp] theorem finalBlock_length (rest : List Byte) (h : rest.length ≤ 95) : (finalBlock rest).length = 96 := by
  simp only [finalBlock, zeros, List.length_append, List.length_replicate, List.length_singleton]
  omega

/-! ## rem -/

theorem rem_lt (len : Word) : rem len < 192 := by
  simp only [rem, Config.thresh, Config.block]
  split <;> omega

theorem rem_short {len : Word} (h : len.toNat < 192) : rem len = len.toNat := by simp [rem, Config.thresh, h]

theorem rem_long {len : Word} (h : 192 ≤ len.toNat) : rem len = len.toNat % 96 := by
  simp [rem, Config.thresh, Config.block, Nat.not_lt.mpr h]

/-! ## The two halves of APPEND -/

/-- All that APPEND's flush can do: nothing, LONG_ENTRY at 192, FLUSH at a later multiple of 96. -/
theorem flushIfDue_cases (s : State) :
    (s.len.toNat = 192 ∧ flushIfDue s = longEntry s) ∨
    (192 < s.len.toNat ∧ s.len.toNat % 96 = 0 ∧ flushIfDue s = flush s) ∨
    (s.len.toNat ≠ 192 ∧ ¬ (192 < s.len.toNat ∧ s.len.toNat % 96 = 0) ∧ flushIfDue s = s) := by
  unfold flushIfDue Config.thresh Config.block
  split
  · exact .inl ⟨‹_›, rfl⟩
  · split
    · exact .inr (.inl ⟨(‹_ ∧ _›).1, (‹_ ∧ _›).2, rfl⟩)
    · exact .inr (.inr ⟨‹_›, ‹_›, rfl⟩)

/-- APPEND's flush writes `h` alone. -/
theorem flushIfDue_frame (s : State) : flushIfDue s = { s with h := (flushIfDue s).h } := by
  obtain ⟨-, h⟩ | ⟨-, -, h⟩ | ⟨-, -, h⟩ := flushIfDue_cases s <;> rw [h] <;> simp only [longEntry, flush]

theorem flushIfDue_quiet {s : State} (h : ¬ (192 ≤ s.len.toNat ∧ s.len.toNat % 96 = 0)) : flushIfDue s = s := by
  obtain ⟨h1, -⟩ | ⟨h1, h2, -⟩ | ⟨-, -, h3⟩ := flushIfDue_cases s
  · omega
  · omega
  · exact h3

@[simp] theorem flushIfDue_buf (s : State) : (flushIfDue s).buf = s.buf := by rw [flushIfDue_frame]
@[simp] theorem flushIfDue_len (s : State) : (flushIfDue s).len = s.len := by rw [flushIfDue_frame]

@[simp] theorem bufSlice_flushIfDue (s : State) (a b : Nat) : bufSlice (flushIfDue s) a b = bufSlice s a b := by
  simp only [bufSlice, flushIfDue_buf]

/-- APPEND writes `h`, `buf` and `len` alone (R144). -/
theorem appendByte_frame (s : State) (b : Byte) :
    appendByte s b =
      { s with h := (appendByte s b).h, buf := s.buf.setIfInBounds (rem s.len) b, len := s.len + 1 } := by
  unfold appendByte
  rw [flushIfDue_frame]
  simp only [storeByte]

@[simp] theorem appendByte_buf (s : State) (b : Byte) : (appendByte s b).buf = s.buf.setIfInBounds (rem s.len) b := by
  rw [appendByte_frame]
@[simp] theorem appendByte_len (s : State) (b : Byte) : (appendByte s b).len = s.len + 1 := by rw [appendByte_frame]

@[simp] theorem appendBytes_nil (s : State) : appendBytes s [] = s := rfl
@[simp] theorem appendBytes_cons (s : State) (b : Byte) (bs : List Byte) :
    appendBytes s (b :: bs) = appendBytes (appendByte s b) bs := rfl
theorem appendBytes_append (s : State) (as bs : List Byte) :
    appendBytes s (as ++ bs) = appendBytes (appendBytes s as) bs := by simp only [appendBytes, List.foldl_append]

/-- The loop of UPDATE writes `h`, `buf` and `len` alone. -/
theorem appendBytes_frame (s : State) (bs : List Byte) :
    appendBytes s bs =
      { s with h := (appendBytes s bs).h, buf := (appendBytes s bs).buf, len := (appendBytes s bs).len } := by
  induction bs generalizing s with
  | nil => rfl
  | cons b bs ih =>
    rw [appendBytes_cons, ih, appendByte_frame]

theorem appendBytes_len (s : State) (bs : List Byte) : (appendBytes s bs).len = s.len + BitVec.ofNat 64 bs.length := by
  induction bs generalizing s with
  | nil => simp
  | cons b bs ih =>
    rw [appendBytes_cons, ih, appendByte_len, List.length_cons]
    have h1 : (1 : Word).toNat = 1 := rfl
    apply BitVec.eq_of_toNat_eq
    simp only [BitVec.toNat_add, BitVec.toNat_ofNat, h1]
    omega

/-- APPEND's results depend on `h`, `buf` and `len` alone. -/
theorem flushIfDue_congr {s t : State} (hh : s.h = t.h) (hb : s.buf = t.buf) (hl : s.len = t.len) :
    (flushIfDue s).h = (flushIfDue t).h := by
  have hn : s.len.toNat = t.len.toNat := by rw [hl]
  obtain ⟨h1, h⟩ | ⟨h1, h2, h⟩ | ⟨h1, h2, h⟩ := flushIfDue_cases s <;>
    obtain ⟨h1', h'⟩ | ⟨h1', h2', h'⟩ | ⟨h1', h2', h'⟩ := flushIfDue_cases t <;>
    first
      | omega
      | (rw [h, h']; simp only [longEntry, flush, bufSlice, hh, hb])

theorem appendBytes_congr {s t : State} (hh : s.h = t.h) (hb : s.buf = t.buf) (hl : s.len = t.len) (bs : List Byte) :
    (appendBytes s bs).h = (appendBytes t bs).h ∧ (appendBytes s bs).buf = (appendBytes t bs).buf ∧
      (appendBytes s bs).len = (appendBytes t bs).len := by
  induction bs generalizing s t with
  | nil => exact ⟨hh, hb, hl⟩
  | cons b bs ih =>
    have hstore : (storeByte s b).buf = (storeByte t b).buf ∧ (storeByte s b).len = (storeByte t b).len := by
      simp only [storeByte_buf, storeByte_len, hb, hl, and_self]
    rw [appendBytes_cons, appendBytes_cons]
    exact ih (flushIfDue_congr hh hstore.1 hstore.2) (by simp only [appendByte_buf, hb, hl])
      (by simp only [appendByte_len, hl])

/-! ## The message a state holds -/

/-- The byte lands after the bytes already held. -/
theorem bufSlice_storeByte (s : State) (b : Byte) :
    bufSlice (storeByte s b) 0 (rem s.len + 1) = bufSlice s 0 (rem s.len) ++ [b] := by
  have hlt := rem_lt s.len
  simp only [bufSlice, storeByte_buf, slice_zero, Vector.toList_setIfInBounds]
  rw [List.take_add_one, List.take_set_of_le (Nat.le_refl _)]
  simp [hlt]

theorem bufSlice_prefix (s : State) {a b c : Nat} (h : b ≤ c) : bufSlice s a b = slice (bufSlice s 0 c) a b := by
  simp only [bufSlice, slice_zero]
  rcases Nat.le_total a b with hab | hab
  · simp only [slice, List.drop_take, List.take_take]
    congr 1
    omega
  · have : b - a = 0 := by omega
    simp [slice, this]

/-- A block state reads the blocks before it only. -/
theorem blockState_append (M N : List Byte) (e1 e2 : Word) {k : Nat} (h : 96 * k ≤ M.length) :
    blockState (M ++ N) e1 e2 k = blockState M e1 e2 k := by
  induction k with
  | zero => rfl
  | succ k ih =>
    simp only [blockState]
    rw [ih (by omega), slice_append_left _ _ (by omega)]

/-- APPEND extends the message a state holds by one byte (R34, R144 to R146). -/
theorem HoldsMessage.appendByte {M : List Byte} {e1 e2 : Word} {s : State} (hs : HoldsMessage M e1 e2 s)
    (hroom : M.length < 2 ^ 64 - 1) (b : Byte) : HoldsMessage (M ++ [b]) e1 e2 (Machine.appendByte s b) := by
  obtain ⟨hlen, hshort, hlong⟩ := hs
  have hlen' : (storeByte s b).len.toNat = M.length + 1 := by
    have h1 : (1 : Word).toNat = 1 := rfl
    simp only [storeByte_len, BitVec.toNat_add, hlen, h1]
    omega
  have hstore := bufSlice_storeByte s b
  constructor
  · simp only [appendByte_len, List.length_append, List.length_singleton]
    exact hlen'
  · intro hM
    simp only [List.length_append, List.length_singleton] at hM ⊢
    have hM' : M.length < 192 := by omega
    obtain ⟨hbuf, h0, h1⟩ := hshort hM'
    rw [rem_short (by omega), hlen, hbuf] at hstore
    have hq : Machine.appendByte s b = storeByte s b := flushIfDue_quiet (by omega)
    rw [hq]
    exact ⟨hstore, h0, h1⟩
  · intro hM
    simp only [List.length_append, List.length_singleton] at hM ⊢
    by_cases hM' : M.length < 192
    · obtain ⟨hbuf, h0, h1⟩ := hshort hM'
      rw [rem_short (by omega), hlen, hbuf] at hstore
      have h191 : M.length = 191 := by omega
      have hq : Machine.appendByte s b = longEntry (storeByte s b) := by
        obtain ⟨-, h⟩ | ⟨h, -⟩ | ⟨h, -⟩ := flushIfDue_cases (storeByte s b)
        · exact h
        · omega
        · omega
      rw [hq, h191]
      refine ⟨?_, ?_⟩
      · simp [bufSlice, h191]
      · rw [h191] at hstore
        simp only [longEntry_h, storeByte_h, h0, h1]
        rw [bufSlice_prefix (storeByte s b) (a := 96) (b := 192) (c := 192) (by omega),
          bufSlice_prefix (storeByte s b) (a := 0) (b := 96) (c := 192) (by omega), hstore]
        rfl
    · have hge : 192 ≤ M.length := by omega
      obtain ⟨hbuf, hh⟩ := hlong hge
      rw [rem_long (by omega), hlen, hbuf] at hstore
      by_cases hdue : (M.length + 1) % 96 = 0
      · have hq : Machine.appendByte s b = flush (storeByte s b) := by
          obtain ⟨h, -⟩ | ⟨-, -, h⟩ | ⟨-, h, -⟩ := flushIfDue_cases (storeByte s b)
          · omega
          · exact h
          · omega
        have hdiv : (M.length + 1) / 96 = M.length / 96 + 1 := by omega
        rw [hq, hdue, hdiv]
        refine ⟨?_, ?_⟩
        · rw [List.drop_eq_nil_of_le (by simp; omega)]
          simp [bufSlice]
        · have hr : M.length % 96 + 1 = 96 := by omega
          rw [hr] at hstore
          simp only [flush_h, storeByte_h, blockState]
          rw [blockState_append _ _ _ _ (by omega), hh, hstore]
          congr 2
          simp only [slice]
          rw [List.drop_append_of_le_length (by omega), List.take_of_length_le (by simp; omega)]
      · have hq : Machine.appendByte s b = storeByte s b := flushIfDue_quiet (by omega)
        have hdiv : (M.length + 1) / 96 = M.length / 96 := by omega
        have hmod : (M.length + 1) % 96 = M.length % 96 + 1 := by omega
        rw [hq, hdiv, hmod]
        refine ⟨?_, ?_⟩
        · rw [hstore, List.drop_append_of_le_length (by omega)]
        · rw [storeByte_h, hh, blockState_append _ _ _ _ (by omega)]

/-- The loop of UPDATE extends the message by its bytes. -/
theorem HoldsMessage.appendBytes {M : List Byte} {e1 e2 : Word} {s : State} (hs : HoldsMessage M e1 e2 s)
    (bs : List Byte) (hroom : M.length + bs.length ≤ 2 ^ 64 - 1) :
    HoldsMessage (M ++ bs) e1 e2 (Machine.appendBytes s bs) := by
  induction bs generalizing M s with
  | nil => simpa using hs
  | cons b bs ih =>
    rw [List.length_cons] at hroom
    have h := ih (hs.appendByte (by omega) b) (by simp; omega)
    simpa using h

/-- FINAL's choice computes `Hash128` of the message the state holds (R148, R149, R118). -/
theorem HoldsMessage.finalHash {M : List Byte} {e1 e2 : Word} {s : State} (hs : HoldsMessage M e1 e2 s) :
    Machine.finalHash s = hash128 M e1 e2 := by
  obtain ⟨hlen, hshort, hlong⟩ := hs
  unfold Machine.finalHash hash128
  rw [hlen]
  split
  · obtain ⟨hbuf, h0, h1⟩ := hshort ‹_›
    simp only [finalShort, hlen, hbuf, h0, h1]
  · obtain ⟨hbuf, hh⟩ := hlong (Nat.le_of_not_lt ‹¬ _›)
    simp only [finalLong, Machine.long, hlen, Config.block, hbuf, hh]

end Sys2Proof.Machine
end

