-- ==== Sys2Proof/Laws/Step.lean ====
section
/-! SUPPORT. All that an instruction and a step can do, said once, guards included: an instruction either raises one error,
or completes with its own writes, or is a read. -/

namespace Sys2Proof.Machine

@[simp] theorem beatBytes_length (nb : BitVec 4) (a : Word) : (beatBytes nb a).length = nb.toNat := by simp [beatBytes]

/-- The codes that name a width, and the one that does not. -/
theorem widthOf_eq_none_iff (w : BitVec 2) : widthOf w = none ↔ w = 0b11#2 := by revert w; decide

/-- The inversion of `exec`: what each instruction answers, and when. -/
theorem exec_cases (i : Instr) (s : State) :
    (∃ a b, i = .nop a b ∧ exec i s = .next (complete s)) ∨
    (∃ w width a b, i = .init w a b ∧ widthOf w = some width ∧
      exec i s = .next (complete (startHash width (seedSelect Config.h32SeedMode width a b) s))) ∨
    (∃ a b, i = .init 0b11#2 a b ∧ exec i s = .next (raiseError .invalidWidth s)) ∨
    (∃ nb a b, i = .update nb a b ∧ 8 < nb.toNat ∧ exec i s = .next (raiseError .illegalCommand s)) ∨
    (∃ nb a b, i = .update nb a b ∧ nb.toNat ≤ 8 ∧ s.lc ≠ .active ∧
      exec i s = .next (raiseError .invalidLifecycleUse s)) ∨
    (∃ nb a b, i = .update nb a b ∧ nb.toNat ≤ 8 ∧ s.lc = .active ∧ 2 ^ 64 - 1 < s.len.toNat + nb.toNat ∧
      exec i s = .next (raiseError .lengthOverflow s)) ∨
    (∃ nb a b, i = .update nb a b ∧ nb.toNat ≤ 8 ∧ s.lc = .active ∧ s.len.toNat + nb.toNat ≤ 2 ^ 64 - 1 ∧
      exec i s = .next (complete (appendBytes s (beatBytes nb a)))) ∨
    (∃ a b, i = .final a b ∧ s.lc ≠ .active ∧ exec i s = .next (raiseError .invalidLifecycleUse s)) ∨
    (∃ a b, i = .final a b ∧ s.lc = .active ∧ exec i s = .next (complete (publishDigest (finalHash s) s))) ∨
    (∃ sel, i = .rd sel ∧ exec i s = .next (returnRead (readPort sel s) s)) := by
  cases i with
  | nop a b => exact .inl ⟨a, b, rfl, rfl⟩
  | init w a b =>
    cases hw : widthOf w with
    | none =>
      obtain rfl := (widthOf_eq_none_iff w).mp hw
      exact .inr (.inr (.inl ⟨a, b, rfl, by simp only [exec, execInit, hw]⟩))
    | some width => exact .inr (.inl ⟨w, width, a, b, rfl, hw, by simp only [exec, execInit, hw]⟩)
  | update nb a b =>
    simp only [exec, execUpdate, Config.beatBytes, Config.maxLen]
    by_cases h8 : 8 < nb.toNat
    · exact .inr (.inr (.inr (.inl ⟨nb, a, b, rfl, h8, by simp only [h8, if_true]⟩)))
    · by_cases hlc : s.lc = .active
      · by_cases hroom : 2 ^ 64 - 1 < s.len.toNat + nb.toNat
        · exact .inr (.inr (.inr (.inr (.inr (.inl ⟨nb, a, b, rfl, Nat.le_of_not_lt h8, hlc, hroom, by
            rw [if_neg h8, if_neg (not_not_intro hlc), if_pos hroom]⟩)))))
        · exact .inr (.inr (.inr (.inr (.inr (.inr (.inl ⟨nb, a, b, rfl, Nat.le_of_not_lt h8, hlc,
            Nat.le_of_not_lt hroom, by rw [if_neg h8, if_neg (not_not_intro hlc), if_neg hroom]⟩))))))
      · exact .inr (.inr (.inr (.inr (.inl ⟨nb, a, b, rfl, Nat.le_of_not_lt h8, hlc, by
          rw [if_neg h8, if_pos hlc]⟩))))
  | final a b =>
    by_cases hlc : s.lc = .active
    · exact .inr (.inr (.inr (.inr (.inr (.inr (.inr (.inr (.inl ⟨a, b, rfl, hlc, by
        simp only [exec, execFinal]; rw [if_neg (not_not_intro hlc)]⟩))))))))
    · exact .inr (.inr (.inr (.inr (.inr (.inr (.inr (.inl ⟨a, b, rfl, hlc, by
        simp only [exec, execFinal]; rw [if_pos hlc]⟩)))))))
  | rd sel => exact .inr (.inr (.inr (.inr (.inr (.inr (.inr (.inr (.inr ⟨sel, rfl, rfl⟩))))))))

/-- The inversion of `step`: idle, reset, a refused command, or an instruction. -/
theorem step_cases (s : State) :
    (s.inbox = [] ∧ step s = .next s) ∨
    (∃ x rest, s.inbox = .reset x :: rest ∧ step s = .next (resetEngine (takeEvent rest s))) ∨
    (∃ tr rest e, s.inbox = .port tr :: rest ∧ decode tr = .error e ∧
      step s = .next (raiseError .illegalCommand (takeEvent rest s))) ∨
    (∃ tr rest i, s.inbox = .port tr :: rest ∧ decode tr = .ok i ∧ step s = exec i (takeEvent rest s)) := by
  unfold step
  cases hin : s.inbox with
  | nil => exact .inl ⟨rfl, rfl⟩
  | cons ev rest =>
    cases ev with
    | reset x => exact .inr (.inl ⟨x, rest, rfl, rfl⟩)
    | port tr =>
      cases hd : decode tr with
      | error e => exact .inr (.inr (.inl ⟨tr, rest, e, rfl, hd, by simp only [hd, rejectCommand]⟩))
      | ok i => exact .inr (.inr (.inr ⟨tr, rest, i, rfl, hd, by simp only [hd]⟩))

end Sys2Proof.Machine
end

