-- ==== Sys2Proof/Tests/Slice0.lean ====
section
/-! SUPPORT. Tests of one step or one function each, with the expected results of spec/95_test_vectors.md or of the rule named,
and a witness for the hypotheses of every statement of Certificates/Slice0/Obligations.lean that has any. -/

namespace Sys2Proof.Tests

open Sys2Proof Sys2Proof.Machine

/-- The outcome is a next state that passes a check. -/
def nextIs (o : Host.Outcome State Fault Refusal) (p : State → Bool) : Bool :=
  match o with
  | .next t => p t
  | .fault _ => false
  | .refused _ => false

/-- Right after `init.128 0, 0` (V-C6's start). -/
def active : State := { State.reset with lc := .active }

/-- An active state that counts `len` bytes (V-E14 to V-E17 use such a state, "reachable only in principle"). -/
def activeAt (len : Word) : State := { active with len := len }

/-- After V-C6: the message `61 62 63` at seeds 0. -/
def abcHeld : State := { active with len := 3, buf := ((active.buf.set 0 0x61).set 1 0x62).set 2 0x63 }

/-- After V-C9: FINAL's registers for `abcHeld`. -/
def abcDone : State :=
  { abcHeld with lc := .finalized, dvalid := true, dig0 := 0x8AAB15F77537C967#64, dig1 := 0xC61367F8CA7811B0#64 }

/-- `seq(L)` and `kat(L)` of 95_test_vectors.md. -/
def seqBytes (L : Nat) : List Byte := (List.range L).map (BitVec.ofNat 8)
def katBytes (L : Nat) : List Byte := (List.range L).map fun i => BitVec.ofNat 8 (i + 128)

/-- One command sent to a state. -/
def sent (cmd : BitVec 32) (a b : Word) (s : State) : State := { s with inbox := [.port (.command cmd a b)] }

/-! ## WellFormed: the one check, at its edge -/

theorem test_update_nb8_wellFormed : (Instr.update 8#4 0 0).wellFormed = true := by decide
theorem test_update_nb9_illFormed : (Instr.update 9#4 0 0).wellFormed = false := by decide
theorem test_update_nb15_illFormed : (Instr.update 15#4 0 0).wellFormed = false := by decide

/-! ## Decode: words written out bit by bit from the pattern of R71 and the table of R75 -/

theorem test_decode_nop : decodeTableWord 32 0b00000000000000000000000000000000 = some (.nop 0 0) := by decide
theorem test_decode_init_32 : decodeTableWord 32 0b00000000000000000000000000000001 = some (.init 0b00#2 0 0) := by decide
theorem test_decode_init_128 : decodeTableWord 32 0b00000000000000000000000000100001 = some (.init 0b10#2 0 0) := by decide
theorem test_decode_update_5 : decodeTableWord 32 0b00000000000000000000010100000010 = some (.update 5#4 0 0) := by decide
theorem test_decode_final : decodeTableWord 32 0b00000000000000000000000000000011 = some (.final 0 0) := by decide
theorem test_decode_rd_digest1 : decodeTableWord 3 0b011 = some (.rd 3#3) := by decide

/-- `OPA` and `OPB` follow the word (R70; log entry 8): `init.128 1, 2` as 160 bits. -/
theorem test_decode_operands :
    decodeTableWord 160 0x0000000000000002000000000000000100000021 = some (.init 0b10#2 1 2) := by decide

/-- V-E4 to V-E11: a reserved bit of each opcode, a reserved opcode, and a count of 9. -/
theorem test_decode_refuses :
    [0x80000000, 0x10, 0x41, 0x1002, 0x12, 0x103, 0x121, 0x4, 0xF, 0x902].map (decodeTableWord 32) =
      List.replicate 10 none := by decide

theorem test_encode_words :
    [Instr.nop 1 2, .init 0b01#2 1 2, .update 8#4 1 2, .final 1 2, .rd 1#3].map encode =
      [.command 0x00000000#32 1 2, .command 0x00000011#32 1 2, .command 0x00000802#32 1 2, .command 0x00000003#32 1 2,
       .read 1#3] := by decide

/-- A word placed for the next step is the one that runs, and the sequence behind it is kept. -/
theorem test_withFetchWord :
    nextIs (step ((sent 0x3#32 0 0 State.reset).withFetchWord 160 0x0000000000000002000000000000000100000021))
      (fun t => t.h[0] = 1#64 && t.h[1] = 2#64 && t.lc = .active && t.inbox = (sent 0x3#32 0 0 State.reset).inbox) = true := by
  decide

/-! ## NOP (V-C2, V-E18) -/

theorem test_nop_fresh : nextIs (exec (.nop 0 0) State.reset) (fun t => status t = 0x10#64) = true := by decide
theorem test_nop_clears_err_keeps_sticky :
    nextIs (exec (.nop 0 0) { abcDone with err := .invalidLifecycleUse, sticky := true }) (fun t => status t = 0x1016#64) = true := by
  decide

/-! ## INIT (V-C3, V-C4, V-C13) -/

theorem test_init_128_and_64 :
    nextIs (exec (.init 0b10#2 1 2) abcDone)
      (fun t => t.h[0] = 1#64 && t.h[1] = 2#64 && t.len = 0#64 && t.dig0 = 0#64 && t.dig1 = 0#64 && status t = 0x11#64) = true ∧
    nextIs (exec (.init 0b01#2 7 9) State.reset) (fun t => t.h[0] = 7#64 && t.h[1] = 7#64 && status t = 0x09#64) = true := by
  decide

/-- P5: the open parameter's two values. -/
theorem test_seedSelect_modes :
    seedSelect .full64 .w32 0x0000000100000005#64 0 = (0x0000000100000005#64, 0x0000000100000005#64) ∧
    seedSelect .low32 .w32 0x0000000100000005#64 0 = (5#64, 5#64) := by decide

/-! ## UPDATE (V-C7, V-E16) -/

theorem test_update_abc_and_last_byte :
    nextIs (exec (.update 3#4 0xFFFFFFFFFF636261#64 0) active)
      (fun t => t.len = 3#64 && bufSlice t 0 4 = [0x61, 0x62, 0x63, 0x00] && status t = 0x11#64) = true ∧
    nextIs (exec (.update 1#4 5 0) (activeAt 0xFFFFFFFFFFFFFFFD#64)) (fun t => t.len = 0xFFFFFFFFFFFFFFFE#64 && status t = 0x11#64) =
      true := by decide +kernel

/-- V-C10 (ASSUMED): the 24th beat of zeros runs LONG_ENTRY, and `h` is `S_2` of V-M16. -/
theorem test_update_long_entry :
    nextIs (exec (.update 8#4 0 0) (activeAt 184#64))
      (fun t => t.len = 192#64 && t.h[0] = 0xBF51EC23BD47A111#64 && t.h[11] = 0x5ACF826D0DD7FD2C#64) = true := by decide +kernel

/-! ## FINAL (V-C9, V-C12) -/

theorem test_final_abc :
    nextIs (exec (.final 0 0) abcHeld)
      (fun t => t.dig0 = 0x8AAB15F77537C967#64 && t.dig1 = 0xC61367F8CA7811B0#64 && t.len = 3#64 && status t = 0x16#64) = true := by
  decide +kernel
theorem test_final_184_zeros_is_short :
    nextIs (exec (.final 0 0) (activeAt 184#64)) (fun t => t.dig0 = 0xB01EF5D7EC41BA7A#64 && t.dig1 = 0x998ACEC26CA9BA99#64) = true := by
  decide +kernel
/-! ## RD (V-C1) and STATUS -/

theorem test_rd_after_reset :
    [0#3, 1#3, 2#3, 3#3, 7#3].map (fun sel => readPort sel State.reset) = [0x10#64, 0, 0, 0, 0] := by decide
theorem test_rd_writes_no_err :
    nextIs (exec (.rd 1#3) { abcHeld with err := .lengthOverflow }) (fun t => t.reads = [3#64] && t.err = .lengthOverflow) = true := by
  decide

/-! ## Errors (V-E3, V-E1, V-E15, V-E12, V-E13) and the reset event -/

theorem test_errors_of_the_vectors :
    nextIs (step (sent 0x31#32 0 0 State.reset)) (fun t => status t = 0x1210#64 && t.lc = .uninit) = true ∧
    nextIs (step (sent 0x102#32 0x61 0 State.reset)) (fun t => status t = 0x1110#64) = true ∧
    nextIs (step (sent 0x302#32 0x010203#64 0 (activeAt 0xFFFFFFFFFFFFFFFD#64)))
      (fun t => t.len = 0xFFFFFFFFFFFFFFFD#64 && t.buf = active.buf && status t = 0x1411#64) = true ∧
    nextIs (step (sent 0x902#32 0 0 abcDone)) (fun t => status t = 0x1316#64) = true ∧
    nextIs (step (sent 0x3#32 0 0 abcDone)) (fun t => t.dig0 = 0x8AAB15F77537C967#64 && t.dvalid && status t = 0x1116#64) =
      true := by decide +kernel
theorem test_reset_event :
    nextIs (step { abcDone with err := .invalidWidth, sticky := true, inbox := [.reset (some (.read 0#3)), .port (.read 1#3)] })
      (fun t => status t = 0x10#64 && t.len = 0#64 && t.dig0 = 0#64 && t.inbox = [.port (.read 1#3)]) = true := by decide

/-! ## MixCore (95_test_vectors.md section 2) -/

theorem test_rot64 : [rot64 0x0123456789ABCDEF#64 8, rot64 0x8000000000000001#64 1, rot64 1#64 63] =
    [0x23456789ABCDEF01#64, 3#64, 0x8000000000000000#64] := by decide
/-- V-M5, V-M7. -/
theorem test_shortMix : shortMix #v[1, 2, 3, 4] =
    #v[0x2BF7518BD9F16648#64, 0x9A082A6452E0D6F5#64, 0x8811513FD3EDB160#64, 0x03826F115D34E2BD#64] := by decide +kernel
theorem test_shortEnd : shortEnd #v[1, 2, 3, 4] =
    #v[0xD05BC6CE4C6B2EFE#64, 0x8616FFE259AF1463#64, 0xCC8D19644D5EFEDD#64, 0x6491D728A1B49620#64] := by decide +kernel
/-- V-M13 (ASSUMED). -/
theorem test_mix : mix #v[0, 1, 2, 3, 4, 5, 6, 7, 8, 9, 10, 11] (Vector.replicate 12 0) =
    #v[0x1980250E70920532#64, 0x3284350A75B80045#64, 0x0000100000000004#64, 0x0000000280000007#64, 0x00001001000A000B#64,
       0x10001002F0000011#64, 0x0000150380120019#64, 0x2C002003F50A0024#64, 0x1980250E70920533#64, 0x3284350B75B80047#64,
       0x866049926E5C055C#64, 0x800BCB000800FD42#64] := by decide +kernel
/-- V-M17 (ASSUMED). -/
theorem test_endPartial : endPartial #v[1, 2, 3, 4, 5, 6, 7, 8, 9, 10, 11, 12] =
    #v[0x65A08AB74275CE8A#64, 0x8E6B02C228ADA771#64, 0x000020000006800F#64, 0x0000202800068009#64, 0x0000202801E68012#64,
       0x01A0226801EE801A#64, 0x01AD228401EEC063#64, 0x022DC28B9BEF2869#64, 0x067AC2C96BF18896#64, 0x822ADD09D73A2998#64,
       0x8E6B22C228ADA77B#64, 0xC6226019EB0B25AF#64] := by decide +kernel
/-- The published known-answer values at lengths 0, 15, 16, 31, 32 and 63. -/
theorem test_known_answers :
    [0, 15, 16, 31, 32, 63].map (fun L => (formatDigest .w32 (hash128 (katBytes L) 0 0)).1) =
      [0x6bf50919#64, 0x83ec01f9#64, 0xf274736c#64, 0x027bca7c#64, 0xe5cfc8b6#64, 0x09c1afb4#64] := by decide +kernel
/-- Section 2.3: the last short length and the long path's corner lengths (ASSUMED from 192), at seeds `(1, 2)`. -/
theorem test_hash128_corners :
    [191, 192, 287, 288].map (fun L => hash128 (seqBytes L) 1 2) =
      [(0x98CE42BC92692A5E#64, 0x712F7E174CFEF5C9#64), (0x7D454F3FDD6B7B22#64, 0x99A8552CC6795FED#64),
       (0x3079871F194B26D8#64, 0x87835E3B9F50B405#64), (0x010ECAC142AB444A#64, 0x27190AE51D2BED5C#64)] := by decide +kernel

/-! ## The digest's form (section 4) -/

theorem test_digestBytes_abc :
    digestBytes abcDone =
      [0x67, 0xC9, 0x37, 0x75, 0xF7, 0x15, 0xAB, 0x8A, 0xB0, 0x11, 0x78, 0xCA, 0xF8, 0x67, 0x13, 0xC6] := by decide
/-- V-F11, V-F12. -/
theorem test_hash32_modes :
    [SeedMode.full64, .low32].map (fun m =>
      let e := seedSelect m .w32 0x100000005#64 0
      formatDigest .w32 (hash128 [0x61, 0x62, 0x63] e.1 e.2)) = [(0x5B7C89D0#64, 0#64), (0x245B7AF8#64, 0#64)] := by decide +kernel

/-! ## The assembler (R83 to R88) and the host's seeds (R189) -/

/-- Program P1 and the forms of R85 to R87. -/
theorem test_assemble_P1 :
    assembleProgram ["init.128 0, 0 ; start".toList, "update 3, 0x636261".toList, "  final".toList, "".toList,
        "rd digest0 -> 0x8AAB15F77537C967".toList] =
      some [.command 0x21#32 0 0, .command 0x302#32 0x636261#64 0, .command 0x3#32 0 0, .read 2#3] := by decide +kernel
theorem test_assemble_hash :
    assembleProgram ["hash.64 7, 61 62 63 64 65 66 67 68 69".toList, "init.32".toList, "update.bytes".toList] =
      some [.command 0x11#32 7 0, .command 0x802#32 0x6867666564636261#64 0, .command 0x102#32 0x69#64 0,
            .command 0x3#32 0 0, .command 0x1#32 0 0] := by decide +kernel
theorem test_assemble_errors :
    [["update 9, 0".toList], ["rd 8".toList], ["init.64 1, 2".toList], ["init.128 0x10000000000000000".toList],
      ["jump".toList]].map assembleProgram = [none, none, none, none, none] := by decide +kernel
theorem test_parse_update_bytes_hex :
    parseLine "update.bytes 0a FF".toList = some (some (.updateBytes [10, 255])) := by decide +kernel
theorem test_seedCodec :
    seedCodec (.buffer [1, 0, 0, 0, 0, 0, 0, 0]) = .ok 1#64 ∧ seedCodec (.integer (2 ^ 64)) = .error .invalidSeedEncoding ∧
    seedCodec (.buffer [1]) = .error .invalidSeedEncoding := by decide

/-! ## Witnesses: for each statement with hypotheses, concrete values that meet them, one for each clause and at the edge of
its range. None of them says more than that the hypotheses can be met. -/

theorem witness_ResetAbandonsAndOnlyResetClearsSticky :
    ({ abcDone with inbox := [.reset (some (.command 0x3#32 0 0))] } : State).inbox = .reset (some (.command 0x3#32 0 0)) :: [] ∧
    (∀ x rest, (sent 0x4#32 0 0 { active with sticky := true }).inbox ≠ .reset x :: rest) ∧
    (sent 0x4#32 0 0 { active with sticky := true }).sticky = true ∧
    ∃ t, step (sent 0x4#32 0 0 { active with sticky := true }) = .next t :=
  ⟨rfl, fun _ _ => by simp [sent], rfl, _, rfl⟩

theorem witness_ReadPortMap : 4 ≤ (4#3).toNat ∧ 4 ≤ (7#3).toNat := by decide

theorem witness_ReadsDoNotDisturb : ∃ t, exec (.final 0 0) abcHeld = .next t := ⟨_, rfl⟩

theorem witness_DecodeOfEncode :
    [Instr.nop 1 2, .init 0b11#2 1 2, .update 8#4 1 2, .final 1 2, .rd 7#3].all Instr.wellFormed = true := by decide

theorem witness_EncodeOfDecode : decode (.command 0x802#32 1 2) = .ok (.update 8#4 1 2) ∧ decode (.read 7#3) = .ok (.rd 7#3) := by
  decide

/-- A word under each clause of `illegalWord`, at its edge, and the last legal words beside them. -/
theorem witness_IllegalWordsAreRefused :
    ([0x4#32, 0xF#32, 0x10#32, 0x80000003#32, 0x41#32, 0x80000001#32, 0x12#32, 0x1002#32, 0x902#32, 0xF02#32].all
      fun cmd => decide (illegalWord cmd)) = true ∧
    ([0x0#32, 0x3#32, 0x31#32, 0x802#32].all fun cmd => decide (¬ illegalWord cmd)) = true ∧
    (sent 0x4#32 0 0 active).inbox = .port (.command 0x4#32 0 0) :: [] := by decide

theorem witness_StepExecutesTheDecodedInstruction :
    (sent 0x802#32 1 2 active).inbox = .port (.command 0x802#32 1 2) :: [] ∧
    decode (.command 0x802#32 1 2) = .ok (.update 8#4 1 2) := by decide

theorem witness_IdleKeepsAllState : State.reset.inbox = [] := by decide

theorem witness_NopWritesErrOnly :
    (0x10#32).extractLsb 3 0 = 0#4 ∧ (0x10#32).extractLsb 31 4 ≠ 0#28 ∧ (0x80000000#32).extractLsb 3 0 = 0#4 ∧
    (0x80000000#32).extractLsb 31 4 ≠ 0#28 ∧ (sent 0x10#32 1 2 active).inbox = .port (.command 0x10#32 1 2) :: [] := by decide

theorem witness_InitStartsAHash :
    (0x41#32).extractLsb 3 0 = 1#4 ∧ (0x41#32).extractLsb 31 6 ≠ 0#26 ∧ (0x80000031#32).extractLsb 3 0 = 1#4 ∧
    (0x80000031#32).extractLsb 31 6 ≠ 0#26 ∧ (sent 0x41#32 1 2 active).inbox = .port (.command 0x41#32 1 2) :: [] := by decide

theorem witness_SeedSelectByWidth :
    (0xFFFFFFFF#64).toNat < 2 ^ 32 ∧ ¬ (0x100000000#64).toNat < 2 ^ 32 := by decide

/-- The largest length with room for a full beat, the smallest without, the two states that are not `ACTIVE`, and a word for each
way UPDATE's is illegal. -/
theorem witness_UpdateAppendsTheBeat :
    (8#4).toNat ≤ 8 ∧ (0#4).toNat ≤ 8 ∧
    (activeAt 0xFFFFFFFFFFFFFFF7#64).lc = .active ∧ (activeAt 0xFFFFFFFFFFFFFFF7#64).len.toNat + (8#4).toNat ≤ 2 ^ 64 - 1 ∧
    State.reset.lc ≠ .active ∧ abcDone.lc ≠ .active ∧
    (activeAt 0xFFFFFFFFFFFFFFF8#64).lc = .active ∧ 2 ^ 64 - 1 < (activeAt 0xFFFFFFFFFFFFFFF8#64).len.toNat + (8#4).toNat ∧
    ((0x1002#32).extractLsb 3 0 = 2#4 ∧ (0x1002#32).extractLsb 31 12 ≠ 0#20) ∧
    ((0x12#32).extractLsb 3 0 = 2#4 ∧ (0x12#32).extractLsb 7 4 ≠ 0#4) ∧
    ((0x902#32).extractLsb 3 0 = 2#4 ∧ 8 < ((0x902#32).extractLsb 11 8).toNat) ∧
    (sent 0x902#32 1 2 active).inbox = .port (.command 0x902#32 1 2) :: [] := by
  decide +kernel

/-- A beat of 8 on 3 bytes: its first and last bytes, a byte it does not write, and no flush point reached. -/
theorem witness_UpdateFrame :
    (8#4).toNat ≤ 8 ∧ abcHeld.lc = .active ∧ abcHeld.len.toNat + (8#4).toNat ≤ 2 ^ 64 - 1 ∧ 0 < (8#4).toNat ∧ 7 < (8#4).toNat ∧
    (∀ j, j < (8#4).toNat → 11 ≠ rem (abcHeld.len + BitVec.ofNat 64 j)) ∧
    ∀ m, abcHeld.len.toNat < m → m ≤ abcHeld.len.toNat + (8#4).toNat → ¬ (192 ≤ m ∧ m % 96 = 0) := by
  have h3 : abcHeld.len.toNat = 3 := by decide
  refine ⟨by decide, by decide, by decide, by decide, by decide, by decide, fun m _ h => ?_⟩
  have h8 : (8#4).toNat = 8 := by decide
  omega

/-- The lengths 191, 287, 95 (no flush at 96), 190, and the last one. -/
theorem witness_AppendFollowsTheFlushMachine :
    (activeAt 191#64).len.toNat + 1 = 192 ∧
    (192 < (activeAt 287#64).len.toNat + 1 ∧ ((activeAt 287#64).len.toNat + 1) % 96 = 0) ∧
    ([95#64, 190#64, 192#64, 286#64].all fun n =>
      decide ((activeAt n).len.toNat + 1 ≠ 192 ∧ ¬ (192 < (activeAt n).len.toNat + 1 ∧ ((activeAt n).len.toNat + 1) % 96 = 0))) = true ∧
    (activeAt 0xFFFFFFFFFFFFFFFE#64).len.toNat < 2 ^ 64 - 1 := by
  have last : (activeAt 0xFFFFFFFFFFFFFFFE#64).len.toNat = 18446744073709551614 := rfl
  exact ⟨rfl, by decide, by decide, by omega⟩

theorem witness_EmptyBeat : active.lc = .active ∧ State.reset.lc ≠ .active ∧ abcDone.lc ≠ .active := by decide

theorem witness_IgnoredOperandsChangeNothing :
    0b00#2 ≠ 0b10#2 ∧ 0b01#2 ≠ 0b10#2 ∧
    (0xFFFFFFFFFF636261#64).toNat % 2 ^ (8 * (3#4).toNat) = (0x636261#64).toNat % 2 ^ (8 * (3#4).toNat) ∧
    (1#64).toNat % 2 ^ (8 * (0#4).toNat) = (2#64).toNat % 2 ^ (8 * (0#4).toNat) := by decide

/-- "abc" as 3 bytes, and as 1, 0 and 2 (section 5), in the last state with room. -/
theorem witness_SplitsOfAMessageAgree :
    let xs : List Beat := [(3#4, 0x636261#64)]
    let ys : List Beat := [(1#4, 0x61#64), (0#4, 0#64), (2#4, 0x6362#64)]
    xs ≠ [] ∧ ys ≠ [] ∧ (xs.all fun x => decide (x.1.toNat ≤ 8)) = true ∧ (ys.all fun y => decide (y.1.toNat ≤ 8)) = true ∧
    beatsMessage xs = beatsMessage ys ∧ (activeAt 0xFFFFFFFFFFFFFFFC#64).lc = .active ∧
    (activeAt 0xFFFFFFFFFFFFFFFC#64).len.toNat + 3 ≤ 2 ^ 64 - 1 ∧ (beatsMessage xs).length = 3 := by
  decide +kernel

theorem witness_FinalPublishesTheDigest :
    (activeAt 191#64).lc = .active ∧ (activeAt 191#64).len.toNat < 192 ∧ (activeAt 0#64).len.toNat < 192 ∧
    (activeAt 192#64).lc = .active ∧ 192 ≤ (activeAt 192#64).len.toNat ∧ State.reset.lc ≠ .active ∧ abcDone.lc ≠ .active ∧
    (0x13#32).extractLsb 3 0 = 3#4 ∧ (0x13#32).extractLsb 31 4 ≠ 0#28 ∧ (0x80000003#32).extractLsb 31 4 ≠ 0#28 ∧
    (sent 0x13#32 1 2 active).inbox = .port (.command 0x13#32 1 2) :: [] := by
  decide

/-- A state that holds "abc", and one that holds 192 zero bytes in long mode. -/
theorem abcHeld_holds : HoldsMessage [0x61, 0x62, 0x63] 0 0 abcHeld :=
  ⟨by decide, fun _ => by decide, fun h => absurd h (by decide)⟩
def longHeld : State := { activeAt 192#64 with h := blockState (zeros 192) 0 0 2 }
theorem longHeld_holds : HoldsMessage (zeros 192) 0 0 longHeld := by
  have h192 : (zeros 192).length = 192 := List.length_replicate ..
  refine ⟨h192.symm, fun h => absurd h (by omega), fun _ => ?_⟩
  rw [h192]
  refine ⟨?_, rfl⟩
  rw [List.drop_eq_nil_of_le (by omega)]
  rfl

theorem witness_BlockInvariant :
    (widthOf 0b00#2 = some .w32 ∧ widthOf 0b01#2 = some .w64 ∧ widthOf 0b10#2 = some .w128) ∧
    (HoldsMessage [0x61, 0x62, 0x63] 0 0 abcHeld ∧ abcHeld.lc = .active ∧ [0x61#8, 0x62, 0x63].length + (8#4).toNat ≤ 2 ^ 64 - 1) ∧
    (HoldsMessage (zeros 192) 0 0 longHeld ∧ longHeld.lc = .active) ∧
    (∃ t, exec (.final 0 0) abcHeld = .next t) ∧
    (∃ t, exec (.update 8#4 0 0) { abcHeld with lc := .finalized } = .next t ∧ t.err ≠ .ok) :=
  ⟨by decide, ⟨abcHeld_holds, rfl, by decide⟩, ⟨longHeld_holds, rfl⟩, ⟨_, rfl⟩, _, rfl, by decide⟩

theorem witness_FinalHashesTheHeldMessage :
    (HoldsMessage [0x61, 0x62, 0x63] 0 0 abcHeld ∧ abcHeld.lc = .active) ∧
    HoldsMessage (zeros 192) 0 0 longHeld ∧ longHeld.lc = .active :=
  ⟨⟨abcHeld_holds, rfl⟩, longHeld_holds, rfl⟩

/-- Beats of 8, 0 and 3 bytes. -/
def someBeats : List Beat := [(8#4, 0x0706050403020100#64), (0#4, 5#64), (3#4, 0x636261#64)]
theorem witness_ChunkInvariance : (∀ x ∈ someBeats, x.1.toNat ≤ 8) ∧ (beatsMessage someBeats).length ≤ 2 ^ 64 - 1 :=
  ⟨by simp [someBeats], Nat.le_trans (show (beatsMessage someBeats).length ≤ 11 by decide +kernel) (by norm_num)⟩
theorem witness_WidthAsymmetry :
    (∀ x ∈ someBeats, x.1.toNat ≤ 8) ∧ (beatsMessage someBeats).length ≤ 2 ^ 64 - 1 ∧ (7#64 : Word) = 7#64 :=
  ⟨witness_ChunkInvariance.1, witness_ChunkInvariance.2, rfl⟩

theorem witness_OneShot64 :
    18446744073709551615 < 2 ^ 64 ∧ (∀ x ∈ [0, 97, 255], x < 256) ∧ [0, 97, 255].length ≤ 2 ^ 64 - 1 := by
  refine ⟨by norm_num, by decide, by norm_num⟩
theorem witness_OneShot32 :
    18446744073709551615 < 2 ^ 64 ∧ (∀ x ∈ [0, 97, 255], x < 256) ∧ ([] : List Nat).length ≤ 2 ^ 64 - 1 := by
  refine ⟨by norm_num, by decide, by norm_num⟩

/-- A command that reports each code of R201. -/
theorem witness_CommandsReportTheFirstError :
    (sent 0x902#32 0 0 abcDone).inbox = .port (.command 0x902#32 0 0) :: [] ∧
    firstError 0x902#32 abcDone = .illegalCommand ∧ firstError 0x31#32 active = .invalidWidth ∧
    firstError 0x802#32 abcDone = .invalidLifecycleUse ∧ firstError 0x3#32 State.reset = .invalidLifecycleUse ∧
    firstError 0x102#32 (activeAt 0xFFFFFFFFFFFFFFFF#64) = .lengthOverflow ∧
    firstError 0x2#32 (activeAt 0xFFFFFFFFFFFFFFFF#64) = .ok := by decide

theorem witness_FailedCommandsHaveNoPartialEffect :
    (sent 0x3#32 0 0 abcDone).inbox = .port (.command 0x3#32 0 0) :: [] ∧
    ∃ t, step (sent 0x3#32 0 0 abcDone) = .next t ∧ t.err ≠ .ok := ⟨rfl, _, rfl, by decide⟩

theorem witness_SuccessLeavesSticky :
    ({ sent 0x3#32 0 0 abcHeld with sticky := true }).inbox = .port (.command 0x3#32 0 0) :: [] ∧
    firstError 0x3#32 { sent 0x3#32 0 0 abcHeld with sticky := true } = .ok := by decide

theorem witness_LifecycleTable :
    0b00#2 ≠ 0b11#2 ∧ 0b10#2 ≠ 0b11#2 ∧ (8#4).toNat ≤ 8 ∧ State.reset.lc ≠ .active ∧ abcDone.lc ≠ .active ∧
    active.lc = .active ∧ (activeAt 0xFFFFFFFFFFFFFFF7#64).len.toNat + (8#4).toNat ≤ 2 ^ 64 - 1 ∧
    2 ^ 64 - 1 < (activeAt 0xFFFFFFFFFFFFFFF8#64).len.toNat + (8#4).toNat ∧
    (sent 0x4#32 0 0 active).inbox = .port (.command 0x4#32 0 0) :: [] ∧ illegalWord 0x4#32 ∧
    ({ active with inbox := [.reset none] } : State).inbox = .reset none :: [] := by decide

theorem witness_OneFinalPerInit :
    abcDone.lc = .finalized ∧ (8#4).toNat ≤ 8 ∧
    ∀ tr ∈ [Transaction.command 0x31#32 0 0, .command 0x102#32 0x61 0, .command 0x3#32 0 0, .read 0#3],
      ∀ w a b, decode tr = .ok (.init w a b) → w = 0b11#2 := by
  refine ⟨rfl, by decide, fun tr htr w a b hd => ?_⟩
  simp only [List.mem_cons, List.not_mem_nil, or_false] at htr
  obtain rfl | rfl | rfl | rfl := htr <;> cases hd
  rfl

theorem witness_FillingLongIsKept :
    (∀ x rest, (sent 0x802#32 1 2 (activeAt 192#64)).inbox ≠ .reset x :: rest) ∧
    (∀ tr rest w a b, (sent 0x802#32 1 2 (activeAt 192#64)).inbox = .port tr :: rest → decode tr = .ok (.init w a b) → w = 0b11#2) ∧
    (∃ t, step (sent 0x802#32 1 2 (activeAt 192#64)) = .next t) ∧ 192 ≤ (sent 0x802#32 1 2 (activeAt 192#64)).len.toNat := by
  refine ⟨fun _ _ => by simp [sent], fun tr rest w a b hin hd => ?_, ⟨_, rfl⟩, by decide⟩
  cases hin
  cases hd

theorem witness_RegisterInvariantIsKept :
    RegisterInv (sent 0x3#32 0 0 abcHeld) ∧ ∃ t, step (sent 0x3#32 0 0 abcHeld) = .next t :=
  ⟨⟨by decide, by decide, by decide, by decide, by decide, by decide, by decide⟩, _, rfl⟩

/-- Two different states a host cannot tell apart: outside `ACTIVE` every hidden word may differ; in `ACTIVE`, a byte behind the
message and a word of `h[2..11]`. -/
theorem witness_HiddenStateIsUnobservable :
    SameToHost abcDone { abcDone with h := Vector.replicate 12 9#64, buf := Vector.replicate 192 7#8 } ∧
    SameToHost abcHeld { abcHeld with h := abcHeld.h.set 2 9#64, buf := abcHeld.buf.set 3 7#8 } ∧
    SameToHost (activeAt 192#64) { activeAt 192#64 with buf := active.buf.set 0 7#8 } ∧
    ∃ t, step abcHeld = .next t :=
  ⟨⟨rfl, fun h => absurd h (by decide), fun h => absurd h (by decide)⟩,
   ⟨rfl, fun _ _ => by decide, fun _ h => absurd h (by decide)⟩,
   ⟨rfl, fun _ h => absurd h (by decide), fun _ _ => ⟨rfl, by decide⟩⟩, _, rfl⟩

theorem witness_Rot64RotatesLeft : (1 ≤ 1 ∧ 1 ≤ 63) ∧ (1 ≤ 63 ∧ 63 ≤ 63) ∧ 0 < 64 ∧ 63 < 64 := by decide

theorem witness_EndAddsThenRunsThreeRounds :
    ∀ i : Fin 12, (Vector.replicate 12 3#64)[i] = (Vector.replicate 12 1#64)[i] + (Vector.replicate 12 2#64)[i] := by decide

theorem witness_TailSwitchEqualsPaddedAdds :
    (1 ≤ (zeros 1).length ∧ (zeros 1).length ≤ 15) ∧ 1 ≤ (zeros 15).length ∧ (zeros 15).length ≤ 15 := by decide

/-- The lengths 192 (`r = 0`) and 287 (`r = 95`). -/
theorem witness_FinalBlockLayout :
    (192 ≤ (zeros 192).length ∧ 192 ≤ (zeros 287).length) ∧
    (94 < (zeros 287).length % 96 ∧ (zeros 192).length % 96 ≤ 0 ∧ (zeros 192).length % 96 ≤ 94 ∧ 94 < 95) := by
  decide +kernel

theorem witness_Hash128SelectsAtTheThreshold : (zeros 191).length < 192 ∧ 192 ≤ (zeros 192).length := by decide +kernel

theorem witness_DigestBytesAreLittleEndian :
    (3 < 8 ∧ 3 < digestLength .w32) ∧ (7 < 8 ∧ 7 < digestLength .w64) ∧ (8 ≤ 8 ∧ 8 < digestLength .w128) ∧
    8 ≤ 15 ∧ 15 < digestLength .w128 := by decide

theorem witness_AssembledWords : 18446744073709551615 < 2 ^ 64 ∧ 0 < 2 ^ 64 ∧ 8 ≤ 8 := by norm_num

theorem witness_SeedCodecContract :
    18446744073709551615 ≤ 2 ^ 64 - 1 ∧ (-1 : Int) < 0 ∧ (2 : Int) ^ 64 - 1 < 18446744073709551616 ∧
    (zeros 8).length = 8 ∧ (zeros 7).length ≠ 8 ∧ (zeros 9).length ≠ 8 := by
  refine ⟨by norm_num, by norm_num, by norm_num, by decide, by decide, by decide⟩

theorem witness_EnginesShareNothing : [State.reset, abcHeld][1]? = some abcHeld := rfl

end Sys2Proof.Tests
end

section
/-! `LE64` as a number: little-endian bytes are the base-256 digits of a word (00_scope.md R14, 20_memory.md R53). -/

namespace Sys2Proof.Machine

/-- `LE64` of any number of bytes reads them as base-256 digits, least significant first, modulo 2^64. -/
theorem le64_toNat_mod (bs : List Byte) : (le64 bs).toNat = Nat.ofDigits 256 (bs.map BitVec.toNat) % 2 ^ 64 := by
  induction bs with
  | nil => rfl
  | cons b bs ih =>
    simp only [le64, BitVec.toNat_add, BitVec.toNat_shiftLeft, BitVec.toNat_setWidth, ih, List.map_cons,
      Nat.ofDigits_cons, Nat.shiftLeft_eq]
    omega

/-- The value of a list of bytes is below 256 to their number. -/
theorem ofDigits_bytes_lt (bs : List Byte) : Nat.ofDigits 256 (bs.map BitVec.toNat) < 256 ^ bs.length := by
  have hdigits : ∀ d ∈ bs.map BitVec.toNat, d < 256 := by
    intro d hd
    obtain ⟨b, -, rfl⟩ := List.mem_map.mp hd
    exact b.isLt
  simpa using Nat.ofDigits_lt_base_pow_length (by decide) hdigits

/-- Up to eight bytes, `LE64` does not wrap. -/
theorem le64_toNat (bs : List Byte) (hlen : bs.length ≤ 8) :
    (le64 bs).toNat = Nat.ofDigits 256 (bs.map BitVec.toNat) := by
  have hlt : Nat.ofDigits 256 (bs.map BitVec.toNat) < 2 ^ 64 :=
    calc Nat.ofDigits 256 (bs.map BitVec.toNat) < 256 ^ bs.length := ofDigits_bytes_lt bs
      _ ≤ 256 ^ 8 := Nat.pow_le_pow_right (by decide) hlen
      _ = 2 ^ 64 := by norm_num
  rw [le64_toNat_mod, Nat.mod_eq_of_lt hlt]

/-- Byte `j` of a word is its base-256 digit of weight `256 ^ j`. -/
theorem extractByte_toNat (w : Word) (j : Nat) : (w.extractLsb' (8 * j) 8).toNat = w.toNat / 256 ^ j % 256 := by
  rw [BitVec.extractLsb'_toNat, Nat.shiftRight_eq_div_pow, Nat.pow_mul]

/-- The first `n` bytes of a word have the value of its low `8 * n` bits. -/
theorem ofDigits_lowBytes (w : Word) (n : Nat) :
    Nat.ofDigits 256 (((List.range n).map fun j => w.extractLsb' (8 * j) 8).map BitVec.toNat) = w.toNat % 256 ^ n := by
  induction n with
  | zero => simp [Nat.mod_one]
  | succ n ih =>
    rw [List.range_succ, List.map_append, List.map_append, Nat.ofDigits_append, ih, Nat.mod_pow_succ]
    simp only [List.map_cons, List.map_nil, Nat.ofDigits_singleton, extractByte_toNat, List.length_map,
      List.length_range]

@[simp] theorem le64Bytes_length (w : Word) : (le64Bytes w).length = 8 := by simp [le64Bytes]

/-- Every word is the `LE64` of its own eight bytes. -/
@[simp] theorem le64_le64Bytes (w : Word) : le64 (le64Bytes w) = w := by
  apply BitVec.eq_of_toNat_eq
  calc (le64 (le64Bytes w)).toNat
      _ = Nat.ofDigits 256 ((le64Bytes w).map BitVec.toNat) := le64_toNat _ (le64Bytes_length w).le
      _ = w.toNat % 256 ^ 8 := ofDigits_lowBytes w 8
      _ = w.toNat := Nat.mod_eq_of_lt w.isLt

/-- Settles O49: the sum is the eight bytes read as base-256 digits without wrap, and a word's bytes are its digits. -/
theorem le64IsLittleEndian : Obligations.Le64IsLittleEndian := by
  unfold Obligations.Le64IsLittleEndian
  refine ⟨fun b0 b1 b2 b3 b4 b5 b6 b7 => ?_, fun w => ⟨le64_le64Bytes w, le64Bytes_length w⟩⟩
  rw [le64_toNat [b0, b1, b2, b3, b4, b5, b6, b7] (Nat.le_refl 8)]
  simp only [List.map_cons, List.map_nil, Nat.ofDigits_cons, Nat.ofDigits_nil]
  omega

end Sys2Proof.Machine
end

section
/-! What `exec` answers, one equation per guarded case, and that every step answers a next state: the shape in which
`exec_cases` and `step_cases` are used below. -/

namespace Sys2Proof.Machine

theorem exec_init_legal {w : BitVec 2} {width : Width} (hw : widthOf w = some width) (a b : Word) (s : State) :
    exec (.init w a b) s = .next (complete (startHash width (seedSelect Config.h32SeedMode width a b) s)) := by
  simp only [exec, execInit, hw]

theorem exec_update_overcount {nb : BitVec 4} (h8 : 8 < nb.toNat) (a b : Word) (s : State) :
    exec (.update nb a b) s = .next (raiseError .illegalCommand s) := by
  simp only [exec, execUpdate, Config.beatBytes, if_pos h8]

theorem exec_update_inactive {nb : BitVec 4} (h8 : nb.toNat ≤ 8) {s : State} (hlc : s.lc ≠ .active) (a b : Word) :
    exec (.update nb a b) s = .next (raiseError .invalidLifecycleUse s) := by
  simp only [exec, execUpdate, Config.beatBytes, if_neg (Nat.not_lt.mpr h8), if_pos hlc]

theorem exec_update_overflow {nb : BitVec 4} (h8 : nb.toNat ≤ 8) {s : State} (hlc : s.lc = .active)
    (hfull : 2 ^ 64 - 1 < s.len.toNat + nb.toNat) (a b : Word) :
    exec (.update nb a b) s = .next (raiseError .lengthOverflow s) := by
  simp only [exec, execUpdate, Config.beatBytes, Config.maxLen, if_neg (Nat.not_lt.mpr h8),
    if_neg (not_not_intro hlc), if_pos hfull]

theorem exec_update_room {nb : BitVec 4} (h8 : nb.toNat ≤ 8) {s : State} (hlc : s.lc = .active)
    (hroom : s.len.toNat + nb.toNat ≤ 2 ^ 64 - 1) (a b : Word) :
    exec (.update nb a b) s = .next (complete (appendBytes s (beatBytes nb a))) := by
  simp only [exec, execUpdate, Config.beatBytes, Config.maxLen, if_neg (Nat.not_lt.mpr h8),
    if_neg (not_not_intro hlc), if_neg (Nat.not_lt.mpr hroom)]

theorem exec_final_inactive {s : State} (hlc : s.lc ≠ .active) (a b : Word) :
    exec (.final a b) s = .next (raiseError .invalidLifecycleUse s) := by
  simp only [exec, execFinal, if_pos hlc]

theorem exec_final_active {s : State} (hlc : s.lc = .active) (a b : Word) :
    exec (.final a b) s = .next (complete (publishDigest (finalHash s) s)) := by
  simp only [exec, execFinal, if_neg (not_not_intro hlc)]

/-- No instruction stops the machine (60_exceptions.md R200). -/
theorem exec_next (i : Instr) (s : State) : ∃ t, exec i s = .next t := by
  obtain ⟨_, _, -, h⟩ | ⟨_, _, _, _, -, -, h⟩ | ⟨_, _, -, h⟩ | ⟨_, _, _, -, -, h⟩ | ⟨_, _, _, -, -, -, h⟩ |
    ⟨_, _, _, -, -, -, -, h⟩ | ⟨_, _, _, -, -, -, -, h⟩ | ⟨_, _, -, -, h⟩ | ⟨_, _, -, -, h⟩ | ⟨_, -, h⟩ :=
    exec_cases i s <;> exact ⟨_, h⟩

/-- No step stops the machine. -/
theorem step_next (s : State) : ∃ t, step s = .next t := by
  obtain ⟨-, h⟩ | ⟨_, _, -, h⟩ | ⟨_, _, _, -, -, h⟩ | ⟨_, rest, i, -, -, h⟩ := step_cases s
  · exact ⟨_, h⟩
  · exact ⟨_, h⟩
  · exact ⟨_, h⟩
  · obtain ⟨t, ht⟩ := exec_next i (takeEvent rest s)
    exact ⟨t, h.trans ht⟩

theorem run_succ {s t : State} (h : step s = .next t) (k : Nat) : run (k + 1) s = run k t := by
  simp only [run, h]

end Sys2Proof.Machine
end

section
/-! The block invariant (10_state.md R34): it speaks of `len`, `buf` and `h` alone, which only INIT and a successful UPDATE
write. -/

namespace Sys2Proof.Machine

/-- The message a state holds is fixed by `len`, `buf` and `h`. -/
theorem HoldsMessage.congr {M : List Byte} {e1 e2 : Word} {s t : State} (hs : HoldsMessage M e1 e2 s)
    (hlen : t.len = s.len) (hbuf : t.buf = s.buf) (hh : t.h = s.h) : HoldsMessage M e1 e2 t := by
  refine ⟨hlen ▸ hs.length, ?_, ?_⟩
  · simpa only [bufSlice, hbuf, hh] using hs.short
  · simpa only [bufSlice, hbuf, hh] using hs.long

/-- INIT starts the empty message (R142). -/
theorem holdsMessage_startHash (width : Width) (e : Word × Word) (s : State) :
    HoldsMessage [] e.1 e.2 (startHash width e s) :=
  ⟨rfl, fun _ => ⟨rfl, rfl, rfl⟩, fun h => absurd h (by decide)⟩

/-- Every instruction but a legal INIT and an UPDATE that succeeds keeps the message. -/
theorem HoldsMessage.exec {M : List Byte} {e1 e2 : Word} {i : Instr} {s t : State} (hs : HoldsMessage M e1 e2 s)
    (h : Machine.exec i s = .next t) (hinit : ∀ w a b, i = .init w a b → w = 0b11#2)
    (hupdate : ∀ nb a b, i = .update nb a b → t.err ≠ .ok) : HoldsMessage M e1 e2 t := by
  obtain ⟨_, _, -, hx⟩ | ⟨w, _, a, b, hi, hw, hx⟩ | ⟨_, _, -, hx⟩ | ⟨_, _, _, -, -, hx⟩ | ⟨_, _, _, -, -, -, hx⟩ |
    ⟨_, _, _, -, -, -, -, hx⟩ | ⟨nb, a, b, hi, -, -, -, hx⟩ | ⟨_, _, -, -, hx⟩ | ⟨_, _, -, -, hx⟩ | ⟨_, -, hx⟩ :=
    exec_cases i s <;> cases hx.symm.trans h
  · exact hs.congr rfl rfl rfl
  · exact absurd ((widthOf_eq_none_iff w).mpr (hinit w a b hi)) (by simp [hw])
  · exact hs.congr rfl rfl rfl
  · exact hs.congr rfl rfl rfl
  · exact hs.congr rfl rfl rfl
  · exact hs.congr rfl rfl rfl
  · exact absurd rfl (hupdate nb a b hi)
  · exact hs.congr rfl rfl rfl
  · exact hs.congr rfl rfl rfl
  · exact hs.congr rfl rfl rfl

/-- Settles O25: INIT sets up the empty message, APPEND extends it byte by byte, nothing else touches what it speaks of. -/
theorem blockInvariant : Obligations.BlockInvariant := by
  unfold Obligations.BlockInvariant
  refine ⟨fun s w width a b hw => ?_, fun M e1 e2 s nb a b hs hlc h8 hroom => ?_, fun M e1 e2 i s t hs h => hs.exec h⟩
  · exact ⟨_, exec_init_legal hw a b s, (holdsMessage_startHash width _ s).congr rfl rfl rfl⟩
  · have hlen : s.len.toNat + nb.toNat ≤ 2 ^ 64 - 1 := by rw [hs.length]; exact hroom
    have happend := hs.appendBytes (beatBytes nb a) (by rw [beatBytes_length]; exact hroom)
    exact ⟨_, exec_update_room h8 hlc hlen a b, rfl, happend.congr rfl rfl rfl⟩

end Sys2Proof.Machine
end

section
/-! The registers' invariant: each operation of an instruction keeps it, the reset state has it. -/

namespace Sys2Proof.Machine

/-- Settles O38: no register has left its reset value, and the clause about `h` starts at INIT. -/
theorem registerInvariantAtReset : Obligations.RegisterInvariantAtReset where
  uninit _ := ⟨rfl, rfl⟩
  valid := by decide
  digestZero _ := ⟨rfl, rfl⟩
  narrow64 _ := rfl
  narrow32 _ := ⟨by decide, rfl⟩
  failed h := absurd rfl h
  shortMode h := absurd rfl h

/-- The invariant speaks of no field of the model's own. -/
theorem RegisterInv.withHost {s : State} (hs : RegisterInv s) (inbox : List HostEvent) (reads : List Word) :
    RegisterInv { s with inbox := inbox, reads := reads } := { hs with }

theorem RegisterInv.raiseError {s : State} (hs : RegisterInv s) (e : ErrCode) : RegisterInv (raiseError e s) :=
  { hs with failed := fun _ => rfl }

theorem RegisterInv.complete {s : State} (hs : RegisterInv s) : RegisterInv (complete s) :=
  { hs with failed := fun h => absurd rfl h }

/-- INIT clears the digest and puts zeros in `h[2..11]` (R142). -/
theorem RegisterInv.startHash {s : State} (hs : RegisterInv s) (w : Width) (e : Word × Word) :
    RegisterInv (startHash w e s) where
  uninit h := by cases h
  valid := by simp
  digestZero _ := ⟨rfl, rfl⟩
  narrow64 _ := rfl
  narrow32 _ := ⟨by simp, rfl⟩
  failed := hs.failed
  shortMode _ _ i hi := by
    rw [startHash_h]
    fin_cases i <;> simp at hi ⊢

theorem low32_lt (v : Word) : (low32 v).toNat < 2 ^ 32 := by
  simp only [low32, BitVec.toNat_setWidth]
  omega

/-- FINAL publishes a digest in the form of its width (R183). -/
theorem RegisterInv.publishDigest {s : State} (hs : RegisterInv s) (hlc : s.lc = .active) (x : Word × Word) :
    RegisterInv (publishDigest x s) where
  uninit h := by cases h
  valid := by simp
  digestZero h := by cases h
  narrow64 h := by
    rw [publishDigest_wsel] at h
    simp only [publishDigest_dig1, h, formatDigest]
  narrow32 h := by
    rw [publishDigest_wsel] at h
    simp only [publishDigest_dig0, publishDigest_dig1, h, formatDigest, low32_lt, and_self]
  failed := hs.failed
  shortMode _ := hs.shortMode (by simp [hlc])

theorem storeByte_len_toNat {s : State} (hroom : s.len.toNat < 2 ^ 64 - 1) (b : Byte) :
    (storeByte s b).len.toNat = s.len.toNat + 1 := by
  have h1 : (1 : Word).toNat = 1 := rfl
  rw [storeByte_len, BitVec.toNat_add, h1]
  omega

/-- Below 192 bytes UPDATE does not touch `h` (R144). -/
theorem appendBytes_h_short {s : State} {bs : List Byte} (h : s.len.toNat + bs.length < 192) :
    (appendBytes s bs).h = s.h := by
  induction bs generalizing s with
  | nil => rfl
  | cons b bs ih =>
    rw [List.length_cons] at h
    have hlen : (storeByte s b).len.toNat = s.len.toNat + 1 := storeByte_len_toNat (by omega) b
    have hquiet : appendByte s b = storeByte s b := flushIfDue_quiet (by omega)
    rw [appendBytes_cons, hquiet, ih (by omega), storeByte_h]

theorem appendBytes_len_toNat {s : State} {bs : List Byte} (hroom : s.len.toNat + bs.length ≤ 2 ^ 64 - 1) :
    (appendBytes s bs).len.toNat = s.len.toNat + bs.length := by
  rw [appendBytes_len, BitVec.toNat_add, BitVec.toNat_ofNat]
  omega

/-- UPDATE writes `h`, `buf` and `len` alone, and `h` from 192 bytes on only. -/
theorem RegisterInv.appendBytes {s : State} (hs : RegisterInv s) (hlc : s.lc = .active) {bs : List Byte}
    (hroom : s.len.toNat + bs.length ≤ 2 ^ 64 - 1) : RegisterInv (appendBytes s bs) := by
  rw [appendBytes_frame]
  refine { hs with uninit := ?_, shortMode := ?_ }
  · intro h
    cases hlc.symm.trans h
  · intro h hlt i hi
    have hlt' : s.len.toNat + bs.length < 192 := by rw [← appendBytes_len_toNat hroom]; exact hlt
    calc (Machine.appendBytes s bs).h[i]
        _ = s.h[i] := by rw [appendBytes_h_short hlt']
        _ = 0#64 := hs.shortMode h (by omega) i hi

theorem RegisterInv.exec {s t : State} (hs : RegisterInv s) {i : Instr} (h : exec i s = .next t) : RegisterInv t := by
  obtain ⟨_, _, -, hx⟩ | ⟨_, w, _, _, -, -, hx⟩ | ⟨_, _, -, hx⟩ | ⟨_, _, _, -, -, hx⟩ | ⟨_, _, _, -, -, -, hx⟩ |
    ⟨_, _, _, -, -, -, -, hx⟩ | ⟨nb, a, _, -, -, hlc, hroom, hx⟩ | ⟨_, _, -, -, hx⟩ | ⟨_, _, -, hlc, hx⟩ | ⟨_, -, hx⟩ :=
    exec_cases i s <;> cases hx.symm.trans h
  · exact hs.complete
  · exact (hs.startHash w _).complete
  · exact hs.raiseError _
  · exact hs.raiseError _
  · exact hs.raiseError _
  · exact hs.raiseError _
  · exact (hs.appendBytes hlc (by rw [beatBytes_length]; exact hroom)).complete
  · exact hs.raiseError _
  · exact (hs.publishDigest hlc _).complete
  · exact hs.withHost s.inbox _

/-- Settles O37: by the cases of a step, each operation keeping the invariant. -/
theorem registerInvariantIsKept : Obligations.RegisterInvariantIsKept := by
  unfold Obligations.RegisterInvariantIsKept
  intro s t hs h
  obtain ⟨-, hx⟩ | ⟨_, rest, -, hx⟩ | ⟨_, rest, _, -, -, hx⟩ | ⟨_, rest, i, -, -, hx⟩ := step_cases s
  · cases hx.symm.trans h
    exact hs
  · cases hx.symm.trans h
    exact RegisterInv.withHost registerInvariantAtReset rest s.reads
  · cases hx.symm.trans h
    exact (hs.withHost rest s.reads).raiseError _
  · exact (hs.withHost rest s.reads).exec (hx.symm.trans h)

end Sys2Proof.Machine
end

section
/-! Hidden state (10_state.md R38): states a host cannot tell apart stay so, operation by operation; then along a run. -/

namespace Sys2Proof.Machine

/-! ## The flush points -/

theorem flushIfDue_at_thresh {s : State} (h : s.len.toNat = 192) : flushIfDue s = longEntry s := by
  simp only [flushIfDue, Config.thresh, if_pos h]

theorem flushIfDue_at_block {s : State} (h : 192 < s.len.toNat) (hm : s.len.toNat % 96 = 0) :
    flushIfDue s = flush s := by
  simp only [flushIfDue, Config.thresh, Config.block, if_neg h.ne', if_pos (And.intro h hm)]

/-- APPEND lets `rem` grow by one at most. -/
theorem rem_storeByte_le {s : State} {b : Byte} (h : (storeByte s b).len.toNat = s.len.toNat + 1) :
    rem (storeByte s b).len ≤ rem s.len + 1 := by
  simp only [rem, Config.thresh, Config.block, h]
  split <;> split <;> omega

namespace SameToHost

variable {s t : State}

theorem len_eq (h : SameToHost s t) : t.len = s.len := (congrArg State.len h.registers :)
theorem lc_eq (h : SameToHost s t) : t.lc = s.lc := (congrArg State.lc h.registers :)
theorem inbox_eq (h : SameToHost s t) : t.inbox = s.inbox := (congrArg State.inbox h.registers :)
theorem reads_eq (h : SameToHost s t) : t.reads = s.reads := (congrArg State.reads h.registers :)
theorem dig0_eq (h : SameToHost s t) : t.dig0 = s.dig0 := (congrArg State.dig0 h.registers :)
theorem dig1_eq (h : SameToHost s t) : t.dig1 = s.dig1 := (congrArg State.dig1 h.registers :)
theorem status_eq (h : SameToHost s t) : status t = status s := (congrArg status h.registers :)
theorem readPort_eq (h : SameToHost s t) (sel : BitVec 3) : readPort sel t = readPort sel s :=
  (congrArg (readPort sel) h.registers :)

/-- Two states that agree outside `h` and `buf` are the same to a host while no message is open. -/
theorem of_not_active (hreg : { t with h := s.h, buf := s.buf } = s) (hlc : s.lc ≠ .active) : SameToHost s t :=
  ⟨hreg, fun h => absurd h hlc, fun h => absurd h hlc⟩

/-! ## Operations that do not look at `h` and `buf` -/

theorem raiseError (h : SameToHost s t) (e : ErrCode) : SameToHost (raiseError e s) (raiseError e t) :=
  ⟨(congrArg (Machine.raiseError e) h.registers :), h.shortMode, h.longMode⟩

theorem complete (h : SameToHost s t) : SameToHost (complete s) (complete t) :=
  ⟨(congrArg Machine.complete h.registers :), h.shortMode, h.longMode⟩

theorem returnRead (h : SameToHost s t) (v : Word) : SameToHost (returnRead v s) (returnRead v t) :=
  ⟨(congrArg (Machine.returnRead v) h.registers :), h.shortMode, h.longMode⟩

theorem takeEvent (h : SameToHost s t) (rest : List HostEvent) : SameToHost (takeEvent rest s) (takeEvent rest t) :=
  ⟨(congrArg (Machine.takeEvent rest) h.registers :), h.shortMode, h.longMode⟩

theorem publishDigest (h : SameToHost s t) (x : Word × Word) : SameToHost (publishDigest x s) (publishDigest x t) :=
  of_not_active (congrArg (Machine.publishDigest x) h.registers :) (by simp)

/-- INIT writes all of `h` and `buf`. -/
theorem startHash (h : SameToHost s t) (w : Width) (e : Word × Word) : SameToHost (startHash w e s) (startHash w e t) :=
  ⟨(congrArg (Machine.startHash w e) h.registers :), fun _ _ => ⟨rfl, rfl, rfl⟩, fun _ _ => ⟨rfl, rfl⟩⟩

theorem resetEngine (h : SameToHost s t) : SameToHost (resetEngine s) (resetEngine t) :=
  of_not_active (congrArg Machine.resetEngine h.registers :) (by simp)

/-! ## APPEND and FINAL, which do -/

/-- An open message's held bytes are the same in both states. -/
theorem bufSlice_eq (h : SameToHost s t) (hlc : s.lc = .active) :
    bufSlice s 0 (rem s.len) = bufSlice t 0 (rem s.len) := by
  rcases Nat.lt_or_ge s.len.toNat 192 with hlt | hge
  · exact (h.shortMode hlc hlt).2.2
  · exact (h.longMode hlc hge).2

/-- FINAL hashes the held bytes, the seeds below 192 bytes and `h` from there on: none of them hidden. -/
theorem finalHash_eq (h : SameToHost s t) (hlc : s.lc = .active) : finalHash t = finalHash s := by
  have hbuf := h.bufSlice_eq hlc
  unfold finalHash Config.thresh
  rw [h.len_eq]
  split
  · obtain ⟨h0, h1, -⟩ := h.shortMode hlc ‹_›
    rw [rem_short ‹_›] at hbuf
    simp only [finalShort, h.len_eq, hbuf, h0, h1]
  · have hge := Nat.le_of_not_lt ‹¬ _›
    rw [rem_long hge] at hbuf
    simp only [finalLong, h.len_eq, Config.block, hbuf, (h.longMode hlc hge).1]

/-! APPEND stores behind the held bytes, so it extends them alike; a flush reads held bytes only. -/

theorem appendByte_registers (h : SameToHost s t) (b : Byte) :
    { appendByte t b with h := (appendByte s b).h, buf := (appendByte s b).buf } = appendByte s b := by
  calc { appendByte t b with h := (appendByte s b).h, buf := (appendByte s b).buf }
      _ = { ({ t with h := s.h, buf := s.buf } : State) with
            h := (appendByte s b).h, buf := (appendByte s b).buf, len := s.len + 1 } := by
        rw [appendByte_frame t b, h.len_eq]
      _ = { s with h := (appendByte s b).h, buf := (appendByte s b).buf, len := s.len + 1 } := by rw [h.registers]
      _ = appendByte s b := by rw [appendByte_buf, ← appendByte_frame]

/-- The bytes held after APPEND, up to the new one, are the same in both states. -/
theorem bufSlice_storeByte_eq (h : SameToHost s t) (hlc : s.lc = .active) (b : Byte) {m n : Nat}
    (hn : n ≤ rem s.len + 1) : bufSlice (storeByte s b) m n = bufSlice (storeByte t b) m n := by
  have hs := bufSlice_storeByte s b
  have ht := bufSlice_storeByte t b
  rw [h.len_eq, ← h.bufSlice_eq hlc, ← hs] at ht
  rw [bufSlice_prefix (storeByte s b) hn, bufSlice_prefix (storeByte t b) hn, ht]

/-- From 192 bytes on, the flush has made `h` a function of what a host can tell apart (R145, R146). -/
theorem appendByte_h_eq (h : SameToHost s t) (hlc : s.lc = .active) {b : Byte}
    (hlen : (storeByte s b).len.toNat = s.len.toNat + 1) (hlong : 192 ≤ s.len.toNat + 1) :
    (appendByte s b).h = (appendByte t b).h := by
  have hlen_t : (storeByte t b).len.toNat = s.len.toNat + 1 := by rw [storeByte_len, h.len_eq]; exact hlen
  unfold Machine.appendByte
  rcases Nat.lt_or_ge s.len.toNat 192 with hlt | hge
  · obtain ⟨h0, h1, -⟩ := h.shortMode hlc hlt
    have hrem : rem s.len = s.len.toNat := rem_short hlt
    rw [flushIfDue_at_thresh (by omega), flushIfDue_at_thresh (by omega), longEntry_h, longEntry_h,
      h.bufSlice_storeByte_eq hlc b (m := 96) (by omega), h.bufSlice_storeByte_eq hlc b (m := 0) (by omega)]
    simp only [storeByte_h, h0, h1]
  · have hh := (h.longMode hlc hge).1
    by_cases hdue : (s.len.toNat + 1) % 96 = 0
    · have hrem : rem s.len = s.len.toNat % 96 := rem_long hge
      rw [flushIfDue_at_block (by omega) (by omega), flushIfDue_at_block (by omega) (by omega), flush_h, flush_h,
        h.bufSlice_storeByte_eq hlc b (by omega)]
      simp only [storeByte_h, hh]
    · rw [flushIfDue_quiet (by omega), flushIfDue_quiet (by omega)]
      simp only [storeByte_h, hh]

theorem appendByte (h : SameToHost s t) (hlc : s.lc = .active) (hroom : s.len.toNat < 2 ^ 64 - 1) (b : Byte) :
    SameToHost (appendByte s b) (appendByte t b) := by
  have hlen : (storeByte s b).len.toNat = s.len.toNat + 1 := storeByte_len_toNat hroom b
  have hlen_t : (storeByte t b).len.toNat = s.len.toNat + 1 := by rw [storeByte_len, h.len_eq]; exact hlen
  have hheld : bufSlice (Machine.appendByte s b) 0 (rem (Machine.appendByte s b).len) =
      bufSlice (Machine.appendByte t b) 0 (rem (Machine.appendByte s b).len) := by
    unfold Machine.appendByte
    rw [bufSlice_flushIfDue, bufSlice_flushIfDue, flushIfDue_len]
    exact h.bufSlice_storeByte_eq hlc b (rem_storeByte_le hlen)
  refine ⟨h.appendByte_registers b, fun _ hlt => ?_, fun _ hge => ⟨?_, hheld⟩⟩
  · have hlt' : s.len.toNat + 1 < 192 := by rwa [appendByte_len, ← storeByte_len s b, hlen] at hlt
    obtain ⟨h0, h1, -⟩ := h.shortMode hlc (by omega)
    have hs : Machine.appendByte s b = storeByte s b := flushIfDue_quiet (by omega)
    have ht : Machine.appendByte t b = storeByte t b := flushIfDue_quiet (by omega)
    exact ⟨by rw [hs, ht]; exact h0, by rw [hs, ht]; exact h1, hheld⟩
  · exact h.appendByte_h_eq hlc hlen (by rwa [appendByte_len, ← storeByte_len s b, hlen] at hge)

theorem appendBytes (h : SameToHost s t) (hlc : s.lc = .active) {bs : List Byte}
    (hroom : s.len.toNat + bs.length ≤ 2 ^ 64 - 1) : SameToHost (appendBytes s bs) (appendBytes t bs) := by
  induction bs generalizing s t with
  | nil => exact h
  | cons b bs ih =>
    rw [List.length_cons] at hroom
    have hlen : (Machine.appendByte s b).len.toNat = s.len.toNat + 1 := by
      rw [appendByte_len, ← storeByte_len s b, storeByte_len_toNat (by omega)]
    exact ih (h.appendByte hlc (by omega) b) (by rw [appendByte_frame]; exact hlc) (by omega)

/-! ## A step and a run -/

theorem exec (h : SameToHost s t) {i : Instr} {s' : State} (hs : exec i s = .next s') :
    ∃ t', exec i t = .next t' ∧ SameToHost s' t' := by
  have hlc := h.lc_eq
  have hlen := h.len_eq
  obtain ⟨a, b, rfl, hx⟩ | ⟨w, width, a, b, rfl, hw, hx⟩ | ⟨a, b, rfl, hx⟩ | ⟨nb, a, b, rfl, h8, hx⟩ |
    ⟨nb, a, b, rfl, h8, hact, hx⟩ | ⟨nb, a, b, rfl, h8, hact, hfull, hx⟩ | ⟨nb, a, b, rfl, h8, hact, hroom, hx⟩ |
    ⟨a, b, rfl, hact, hx⟩ | ⟨a, b, rfl, hact, hx⟩ | ⟨sel, rfl, hx⟩ := exec_cases i s <;> cases hx.symm.trans hs
  · exact ⟨_, rfl, h.complete⟩
  · exact ⟨_, exec_init_legal hw a b t, (h.startHash width _).complete⟩
  · exact ⟨_, rfl, h.raiseError _⟩
  · exact ⟨_, exec_update_overcount h8 a b t, h.raiseError _⟩
  · exact ⟨_, exec_update_inactive h8 (hlc ▸ hact) a b, h.raiseError _⟩
  · exact ⟨_, exec_update_overflow h8 (hlc.trans hact) (hlen ▸ hfull) a b, h.raiseError _⟩
  · have hbytes := h.appendBytes hact (bs := beatBytes nb a) (by rw [beatBytes_length]; exact hroom)
    exact ⟨_, exec_update_room h8 (hlc.trans hact) (hlen ▸ hroom) a b, hbytes.complete⟩
  · exact ⟨_, exec_final_inactive (hlc ▸ hact) a b, h.raiseError _⟩
  · rw [← h.finalHash_eq hact]
    exact ⟨_, exec_final_active (hlc.trans hact) a b, (h.publishDigest _).complete⟩
  · rw [← h.readPort_eq sel]
    exact ⟨_, rfl, h.returnRead _⟩

theorem step (h : SameToHost s t) {s' : State} (hs : step s = .next s') : ∃ t', step t = .next t' ∧ SameToHost s' t' := by
  have hin := h.inbox_eq
  obtain ⟨hi, hx⟩ | ⟨x, rest, hi, hx⟩ | ⟨tr, rest, e, hi, hd, hx⟩ | ⟨tr, rest, i, hi, hd, hx⟩ := step_cases s
  · cases hx.symm.trans hs
    exact ⟨t, by simp only [Machine.step, hin, hi], h⟩
  · cases hx.symm.trans hs
    exact ⟨_, by simp only [Machine.step, hin, hi], (h.takeEvent rest).resetEngine⟩
  · cases hx.symm.trans hs
    exact ⟨_, by simp only [Machine.step, hin, hi, hd, rejectCommand], (h.takeEvent rest).raiseError _⟩
  · obtain ⟨t', ht, h'⟩ := (h.takeEvent rest).exec (hx.symm.trans hs)
    exact ⟨t', by simp only [Machine.step, hin, hi, hd, ht], h'⟩

/-- Runs of any length from two such states both go on, and end in two such states. -/
theorem run (h : SameToHost s t) (k : Nat) : ∃ s' t', run k s = .next s' ∧ run k t = .next t' ∧ SameToHost s' t' := by
  induction k generalizing s t with
  | zero => exact ⟨s, t, rfl, rfl, h⟩
  | succ k ih =>
    obtain ⟨s', hs⟩ := step_next s
    obtain ⟨t', ht, h'⟩ := h.step hs
    rw [run_succ hs, run_succ ht]
    exact ih h'

end SameToHost

/-- Settles O39: by the cases of a step; APPEND and FINAL are the operations that read `h` and `buf`, and read held parts only. -/
theorem hiddenStateIsUnobservable : Obligations.HiddenStateIsUnobservable := by
  unfold Obligations.HiddenStateIsUnobservable
  intro s t s' h hs
  exact h.step hs

/-- Settles O40: before the first INIT all of `h` and `buf` is hidden, so a run from reset observes neither. -/
theorem resetContentsAreUnobservable : Obligations.ResetContentsAreUnobservable := by
  unfold Obligations.ResetContentsAreUnobservable
  intro events h buf
  have hsame : SameToHost { State.reset with inbox := events } { State.reset with inbox := events, h := h, buf := buf } :=
    SameToHost.of_not_active rfl (by simp [State.reset])
  obtain ⟨t, u, ht, hu, htu⟩ := hsame.run events.length
  exact ⟨t, u, ht, hu, htu.reads_eq.symm, htu.status_eq.symm, htu.len_eq.symm, htu.dig0_eq.symm, htu.dig1_eq.symm⟩

end Sys2Proof.Machine
end

section
/-! STATUS (10_state.md R35) and the codes of its fields (R25, R26, 60_exceptions.md R201). -/

namespace Sys2Proof.Machine

theorem lcCode_ne (l : Lifecycle) : lcCode l ≠ 0b11#2 := by cases l <;> decide
theorem widthCode_ne (w : Width) : widthCode w ≠ 0b11#2 := by cases w <;> decide
theorem errNumber_le (e : ErrCode) : (errNumber e).toNat ≤ 4 := by cases e <;> decide

/-- Settles O3: a field is the part of the concatenation left after skipping the fields below it. -/
theorem statusFieldsFollowRegisters : Obligations.StatusFieldsFollowRegisters := by
  unfold Obligations.StatusFieldsFollowRegisters
  intro s
  unfold status BitVec.extractLsb
  refine ⟨?lc, ?dvalid, ?wsel, ?low, ?err, ?sticky, ?high⟩
  case lc =>
    exact BitVec.extractLsb'_append_eq_right
  case dvalid =>
    rw [BitVec.extractLsb'_append_eq_of_le (by decide)]
    exact BitVec.extractLsb'_append_eq_right
  case wsel =>
    iterate 2 rw [BitVec.extractLsb'_append_eq_of_le (by decide)]
    exact BitVec.extractLsb'_append_eq_right
  case low =>
    iterate 3 rw [BitVec.extractLsb'_append_eq_of_le (by decide)]
    exact BitVec.extractLsb'_append_eq_right
  case err =>
    iterate 4 rw [BitVec.extractLsb'_append_eq_of_le (by decide)]
    exact BitVec.extractLsb'_append_eq_right
  case sticky =>
    iterate 5 rw [BitVec.extractLsb'_append_eq_of_le (by decide)]
    exact BitVec.extractLsb'_append_eq_right
  case high =>
    iterate 5 rw [BitVec.extractLsb'_append_eq_of_le (by decide)]
    exact BitVec.extractLsb'_append_eq_left

/-- Settles O4: the codes by computation, the bounds by the values a register can hold. -/
theorem registerCodes : Obligations.RegisterCodes := by
  unfold Obligations.RegisterCodes
  exact ⟨rfl, rfl, rfl, rfl, rfl, rfl, fun s => ⟨lcCode_ne s.lc, widthCode_ne s.wsel, errNumber_le s.err⟩,
    rfl, rfl, rfl, rfl, rfl⟩

end Sys2Proof.Machine
end

section
/-! A platform of several engines (10_state.md R41, 60_exceptions.md R214). -/

namespace Sys2Proof.Machine

theorem stepEngine_eq {p : List State} {k : Nat} {s t : State} (hk : p[k]? = some s) (hs : step s = .next t) :
    stepEngine k p = .next (p.set k t) := by
  simp only [stepEngine, hk, hs]

/-- Settles O56: the engine's step replaces its own entry of the list and no other. -/
theorem enginesShareNothing : Obligations.EnginesShareNothing := by
  unfold Obligations.EnginesShareNothing
  intro p k s hk
  obtain ⟨t, hs⟩ := step_next s
  have hlt : k < p.length := (List.getElem?_eq_some_iff.mp hk).1
  exact ⟨t, p.set k t, hs, stepEngine_eq hk hs, List.getElem?_set_self hlt,
    fun j hj => List.getElem?_set_ne hj.symm⟩

end Sys2Proof.Machine
end

section
/-! The read port (20_memory.md R59, 41_stream_buffer.md R150): the returned values are a log that instructions append to and
never look at, so reads disturb nothing. -/

namespace Sys2Proof.Machine

/-! ## One transaction -/

/-- A transaction that decodes is taken from the sequence and executed (20_memory.md R61, 41_stream_buffer.md R140). -/
theorem step_port {s : State} {tr : Transaction} {rest : List HostEvent} {i : Instr} (hin : s.inbox = .port tr :: rest)
    (hd : decode tr = .ok i) : step s = exec i (takeEvent rest s) := by
  simp only [step, hin, hd]

/-- Settles O12: the sequence's front picks the step's last case, and the decoder's answer picks its branch. -/
theorem stepExecutesTheDecodedInstruction : Obligations.StepExecutesTheDecodedInstruction := by
  unfold Obligations.StepExecutesTheDecodedInstruction
  intro s tr rest i hin hd
  exact step_port hin hd

/-! ## A run of reads -/

theorem readPort_returnRead (sel : BitVec 3) (v : Word) (s : State) : readPort sel (returnRead v s) = readPort sel s := rfl

/-- One read of a sequence returns its register's value and leaves the rest of the sequence to come. -/
theorem step_sending_read (sel : BitVec 3) (ts : List Transaction) (s : State) :
    step (sending (.read sel :: ts) s) = .next (sending ts (returnRead (readPort sel s) s)) :=
  step_port (i := .rd sel) rfl rfl

/-- A run of reads returns what each read alone would return, and writes nothing of the engine. -/
theorem runAll_reads (sels : List (BitVec 3)) (s : State) :
    runAll (sending (sels.map .read) s) =
      .next { s with inbox := [], reads := s.reads ++ sels.map fun sel => readPort sel s } := by
  unfold runAll
  rw [sending_inbox, List.length_map, List.length_map]
  induction sels generalizing s with
  | nil => simp only [List.length_nil, List.map_nil, List.append_nil, run, sending]
  | cons sel sels ih =>
    rw [List.length_cons, List.map_cons, run_succ (step_sending_read sel _ s), ih]
    simp only [readPort_returnRead, returnRead_reads, List.map_cons, List.append_assoc, List.singleton_append]
    rfl

/-! ## Instructions do not look at the returned values -/

theorem appendBytes_withReads (s : State) (rs : List Word) (bs : List Byte) :
    appendBytes { s with reads := rs } bs = { appendBytes s bs with reads := rs } := by
  obtain ⟨hh, hbuf, hlen⟩ := appendBytes_congr (s := { s with reads := rs }) (t := s) rfl rfl rfl bs
  rw [appendBytes_frame { s with reads := rs }, appendBytes_frame s, hh, hbuf, hlen]

/-- A command returns nothing, and what was returned before it changes none of its writes. -/
theorem exec_command_withReads {i : Instr} (hcmd : ∀ sel, i ≠ .rd sel) {s t : State} (h : exec i s = .next t) :
    t.reads = s.reads ∧ ∀ rs, exec i { s with reads := rs } = .next { t with reads := rs } := by
  obtain ⟨a, b, rfl, hx⟩ | ⟨w, width, a, b, rfl, hw, hx⟩ | ⟨a, b, rfl, hx⟩ | ⟨nb, a, b, rfl, h8, hx⟩ |
    ⟨nb, a, b, rfl, h8, hact, hx⟩ | ⟨nb, a, b, rfl, h8, hact, hfull, hx⟩ | ⟨nb, a, b, rfl, h8, hact, hroom, hx⟩ |
    ⟨a, b, rfl, hact, hx⟩ | ⟨a, b, rfl, hact, hx⟩ | ⟨sel, rfl, hx⟩ := exec_cases i s <;> cases hx.symm.trans h
  · exact ⟨rfl, fun _ => rfl⟩
  · exact ⟨rfl, fun _ => exec_init_legal hw a b _⟩
  · exact ⟨rfl, fun _ => rfl⟩
  · exact ⟨rfl, fun _ => exec_update_overcount h8 a b _⟩
  · exact ⟨rfl, fun rs => exec_update_inactive (s := { s with reads := rs }) h8 hact a b⟩
  · exact ⟨rfl, fun rs => exec_update_overflow (s := { s with reads := rs }) h8 hact hfull a b⟩
  · refine ⟨by rw [complete_reads, appendBytes_frame], fun rs => ?_⟩
    rw [exec_update_room (s := { s with reads := rs }) h8 hact hroom a b, appendBytes_withReads]
    rfl
  · exact ⟨rfl, fun rs => exec_final_inactive (s := { s with reads := rs }) hact a b⟩
  · exact ⟨rfl, fun rs => exec_final_active (s := { s with reads := rs }) hact a b⟩
  · exact absurd rfl (hcmd sel)

/-- An instruction appends the same values whatever was returned before it, and nothing else it writes depends on that. -/
theorem exec_withReads {i : Instr} {s t : State} (h : exec i s = .next t) :
    ∃ new : List Word, t.reads = s.reads ++ new ∧
      ∀ rs, exec i { s with reads := rs } = .next { t with reads := rs ++ new } := by
  by_cases hrd : ∃ sel, i = .rd sel
  · obtain ⟨sel, rfl⟩ := hrd
    cases h
    exact ⟨[readPort sel s], rfl, fun _ => rfl⟩
  · obtain ⟨hreads, hexec⟩ := exec_command_withReads (not_exists.mp hrd) h
    exact ⟨[], by rw [hreads, List.append_nil], fun rs => by rw [hexec, List.append_nil]⟩

/-- Settles O6: the reads return their registers' values, and the later instruction appends the same values behind them. -/
theorem readsDoNotDisturb : Obligations.ReadsDoNotDisturb := by
  unfold Obligations.ReadsDoNotDisturb
  intro sels i s t h
  obtain ⟨new, hnew, hexec⟩ := exec_withReads h
  refine ⟨sels.map fun sel => readPort sel s, _, List.length_map .., runAll_reads sels s, hexec _, rfl, ?_⟩
  rw [hnew, List.drop_left]

end Sys2Proof.Machine
end

section
/-! The two directions of the encoding (30_encoding.md R70 to R75, R81) as one equivalence: a transaction decodes to an
instruction exactly when the instruction is well-formed and this is its encoding. -/

namespace Sys2Proof.Machine

/-! ## Fields and words -/

@[simp] theorem cmdField_commandWord_init (w : BitVec 2) (a b : Word) :
    cmdField (commandWord (.init w a b)) 5 4 = w := by
  apply BitVec.eq_of_toNat_eq
  rw [cmdField_toNat, commandWord_init_toNat]
  omega

@[simp] theorem cmdField_commandWord_update (nb : BitVec 4) (a b : Word) :
    cmdField (commandWord (.update nb a b)) 11 8 = nb := by
  apply BitVec.eq_of_toNat_eq
  rw [cmdField_toNat, commandWord_update_toNat]
  omega

/-- INIT's word is rebuilt from its field when its reserved bits are 0. -/
theorem commandWord_init_cmdField {cmd : BitVec 32} (hop : cmd.toNat % 16 = 1) (hres : cmd.toNat / 64 = 0) (a b : Word) :
    commandWord (.init (cmdField cmd 5 4) a b) = cmd := by
  apply BitVec.eq_of_toNat_eq
  rw [commandWord_init_toNat, cmdField_toNat]
  omega

/-- UPDATE's word is rebuilt from its field when its reserved bits are 0. -/
theorem commandWord_update_cmdField {cmd : BitVec 32} (hop : cmd.toNat % 16 = 2) (hhigh : cmd.toNat / 4096 = 0)
    (hlow : cmd.toNat / 16 % 16 = 0) (a b : Word) : commandWord (.update (cmdField cmd 11 8) a b) = cmd := by
  apply BitVec.eq_of_toNat_eq
  rw [commandWord_update_toNat, cmdField_toNat]
  omega

/-- A word without fields is its opcode when its reserved bits are 0. -/
theorem eq_ofNat_of_opcode {cmd : BitVec 32} {op : Nat} (hop : cmd.toNat % 16 = op) (hres : cmd.toNat / 16 = 0) :
    cmd = BitVec.ofNat 32 op := by
  apply BitVec.eq_of_toNat_eq
  rw [BitVec.toNat_ofNat]
  omega

/-! ## The round trip -/

theorem decode_encode {i : Instr} (hwf : i.wellFormed = true) : decode (encode i) = .ok i := by
  cases i with
  | nop a b => simp [encode, decode, decodeCommand_eq, commandWord]
  | init w a b =>
    have hop : (1 + 16 * w.toNat) % 16 = 1 := by omega
    have hres : (1 + 16 * w.toNat) / 64 = 0 := by omega
    simp [encode, decode, decodeCommand_eq, commandWord_init_toNat, hop, hres]
  | update nb a b =>
    have hle : nb.toNat ≤ 8 := of_decide_eq_true hwf
    have hop : (2 + 256 * nb.toNat) % 16 = 2 := by omega
    have hhigh : (2 + 256 * nb.toNat) / 4096 = 0 := by omega
    have hlow : (2 + 256 * nb.toNat) / 16 % 16 = 0 := by omega
    have hcount : ¬ 8 < (2 + 256 * nb.toNat) / 256 % 16 := by omega
    simp [encode, decode, decodeCommand_eq, commandWord_update_toNat, hop, hhigh, hlow, hcount]
  | final a b => simp [encode, decode, decodeCommand_eq, commandWord]
  | rd sel => rfl

theorem encode_of_decode {t : Transaction} {i : Instr} (h : decode t = .ok i) : i.wellFormed = true ∧ encode i = t := by
  cases t with
  | read sel =>
    cases h
    exact ⟨rfl, rfl⟩
  | command cmd a b =>
    rw [decode, decodeCommand_eq] at h
    split_ifs at h with h0 hres h1 hres h2 hres hcount h3 hres <;> cases h
    · obtain rfl := eq_ofNat_of_opcode h0 (not_not.mp hres)
      exact ⟨rfl, rfl⟩
    · exact ⟨rfl, by rw [encode, commandWord_init_cmdField h1 (not_not.mp hres)]⟩
    · obtain ⟨hhigh, hlow⟩ := not_or.mp hres
      have hle : (cmdField cmd 11 8).toNat ≤ 8 := by rw [cmdField_toNat]; omega
      exact ⟨decide_eq_true hle,
        by rw [encode, commandWord_update_cmdField h2 (not_not.mp hhigh) (not_not.mp hlow)]⟩
    · obtain rfl := eq_ofNat_of_opcode h3 (not_not.mp hres)
      exact ⟨rfl, rfl⟩

theorem decode_eq_ok_iff {t : Transaction} {i : Instr} : decode t = .ok i ↔ i.wellFormed = true ∧ encode i = t :=
  ⟨encode_of_decode, fun ⟨hwf, ht⟩ => ht ▸ decode_encode hwf⟩

/-- Settles O7: the round trip from an instruction, one constructor at a time. -/
theorem decodeOfEncode : Obligations.DecodeOfEncode := by
  unfold Obligations.DecodeOfEncode
  intro i hwf
  exact decode_encode hwf

/-- Settles O8: the round trip from a transaction, one accepting branch of the decoder at a time. -/
theorem encodeOfDecode : Obligations.EncodeOfDecode := by
  unfold Obligations.EncodeOfDecode
  intro t i h
  exact encode_of_decode h

end Sys2Proof.Machine
end

section
/-! Which words the decoder accepts (30_encoding.md R75) and which it refuses (R78), and the words written out. -/

namespace Sys2Proof.Machine

/-! ## The masks of the opcode table -/

/-- A word is the pattern `p` with the word's own bits outside `p`'s mask, exactly when it matches `p` under the mask. -/
theorem or_and_not_eq_iff {w : Nat} {p mask : BitVec w} (hp : p &&& mask = p) (x : BitVec w) :
    p ||| (x &&& ~~~mask) = x ↔ x &&& mask = p := by
  constructor
  · intro h
    rw [← h, BitVec.and_or_distrib_right, hp, BitVec.and_assoc]
    simp
  · rintro rfl
    rw [← BitVec.and_or_distrib_left]
    simp

/-- A field put back at its place is the word with every other bit cleared. -/
theorem setWidth_extractLsb_shiftLeft (x : BitVec 32) (hi lo : Nat) :
    (x.extractLsb hi lo).setWidth 32 <<< lo = x &&& ((BitVec.allOnes (hi - lo + 1)).setWidth 32 <<< lo) := by
  ext i hi32
  rcases Nat.lt_or_ge i lo with hlt | hge
  · simp [hlt]
  · simp [Nat.not_lt.mpr hge, Nat.add_sub_cancel' hge, BitVec.getLsbD_eq_getElem hi32, Bool.and_comm]

theorem decode_command_iff (cmd : BitVec 32) (a b : Word) {i : Instr} (henc : encode i = .command (commandWord i) a b) :
    decode (.command cmd a b) = .ok i ↔ i.wellFormed = true ∧ commandWord i = cmd := by
  rw [decode_eq_ok_iff, henc, Transaction.command.injEq]
  simp

theorem commandWord_init_eq_iff (cmd : BitVec 32) (a b : Word) :
    commandWord (.init (cmd.extractLsb 5 4) a b) = cmd ↔ cmd &&& 0xFFFFFFCF#32 = 0x00000001#32 := by
  rw [← or_and_not_eq_iff (by decide) cmd, commandWord, setWidth_extractLsb_shiftLeft cmd 5 4]
  rfl

theorem commandWord_update_eq_iff (cmd : BitVec 32) (a b : Word) :
    commandWord (.update (cmd.extractLsb 11 8) a b) = cmd ↔ cmd &&& 0xFFFFF0FF#32 = 0x00000002#32 := by
  rw [← or_and_not_eq_iff (by decide) cmd, commandWord, setWidth_extractLsb_shiftLeft cmd 11 8]
  rfl

theorem and_full_mask (cmd : BitVec 32) : cmd &&& 0xFFFFFFFF#32 = cmd := BitVec.and_allOnes

/-- Settles O9: by the round trip a word decodes to an instruction exactly when it is the instruction's word. -/
theorem decodeSelectsByMask : Obligations.DecodeSelectsByMask := by
  unfold Obligations.DecodeSelectsByMask
  intro cmd a b
  refine ⟨?nop, ?init, ?update, ?final⟩
  case nop =>
    rw [decode_command_iff cmd a b rfl, and_full_mask]
    exact ⟨fun h => h.2.symm, fun h => ⟨rfl, h.symm⟩⟩
  case init =>
    rw [decode_command_iff cmd a b rfl, commandWord_init_eq_iff]
    exact and_iff_right rfl
  case update =>
    rw [decode_command_iff cmd a b rfl, commandWord_update_eq_iff, and_comm, Instr.wellFormed, decide_eq_true_iff]
  case final =>
    rw [decode_command_iff cmd a b rfl, and_full_mask]
    exact ⟨fun h => h.2.symm, fun h => ⟨rfl, h.symm⟩⟩

/-- Settles O10: each word is the encoding of its instruction. -/
theorem wordsDecodeAsWritten : Obligations.WordsDecodeAsWritten := by
  unfold Obligations.WordsDecodeAsWritten
  exact ⟨decode_encode (i := .nop 5 6) rfl, decode_encode (i := .init 0b01#2 5 6) rfl,
    decode_encode (i := .init 0b11#2 5 6) rfl, decode_encode (i := .update 3#4 5 6) rfl,
    decode_encode (i := .update 8#4 5 6) rfl, decode_encode (i := .final 5 6) rfl, decode_encode (i := .rd 2#3) rfl⟩

/-! ## Refused words -/

/-- The decoder refuses the illegal words and no others (R78), one branch of the decoder at a time. -/
theorem illegalWord_iff_decode_error (cmd : BitVec 32) (a b : Word) :
    illegalWord cmd ↔ ∃ e, decode (.command cmd a b) = .error e := by
  simp only [decode, decodeCommand_eq, illegalWord, opNumber, countNumber]
  split_ifs
  · exact iff_of_true (by omega) ⟨_, rfl⟩
  · exact iff_of_false (by omega) (by simp)
  · exact iff_of_true (by omega) ⟨_, rfl⟩
  · exact iff_of_false (by omega) (by simp)
  · exact iff_of_true (by omega) ⟨_, rfl⟩
  · exact iff_of_true (by omega) ⟨_, rfl⟩
  · exact iff_of_false (by omega) (by simp)
  · exact iff_of_true (by omega) ⟨_, rfl⟩
  · exact iff_of_false (by omega) (by simp)
  · exact iff_of_true (by omega) ⟨_, rfl⟩

/-- A command the decoder refuses is taken from the sequence and raises `IllegalCommand` (R77, R140). -/
theorem step_port_refused {s : State} {tr : Transaction} {rest : List HostEvent} {e : DecodeError}
    (hin : s.inbox = .port tr :: rest) (hd : decode tr = .error e) :
    step s = .next (raiseError .illegalCommand (takeEvent rest s)) := by
  simp only [step, hin, hd, rejectCommand]

/-- Settles O11: the decoder's refusals are the illegal words, and a refusal is one `raise`. -/
theorem illegalWordsAreRefused : Obligations.IllegalWordsAreRefused := by
  unfold Obligations.IllegalWordsAreRefused
  refine ⟨illegalWord_iff_decode_error, fun s cmd a b rest hin hill => ?_, fun s a b => rfl, rfl, rfl⟩
  obtain ⟨e, he⟩ := (illegalWord_iff_decode_error cmd a b).mp hill
  exact step_port_refused hin he

end Sys2Proof.Machine
end

section
/-! Ignored operands (30_encoding.md R76, 20_memory.md R52): a meaning reads the effective seeds and the counted lanes alone. -/

namespace Sys2Proof.Machine

/-- The narrow widths take one seed (R181). -/
theorem seedSelect_narrow {w : Width} (hw : w ≠ .w128) (mode : SeedMode) (a b b' : Word) :
    seedSelect mode w a b = seedSelect mode w a b' := by
  cases w with
  | w32 => rfl
  | w64 => rfl
  | w128 => exact absurd rfl hw

theorem exec_init_congr {w : BitVec 2} (hw : w ≠ 0b10#2) (a b b' : Word) (s : State) :
    exec (.init w a b) s = exec (.init w a b') s := by
  cases hwidth : widthOf w with
  | none => simp only [exec, execInit, hwidth]
  | some width =>
    have hnarrow : width ≠ .w128 := by
      rintro rfl
      revert w
      decide
    rw [exec_init_legal hwidth, exec_init_legal hwidth, seedSelect_narrow hnarrow]

/-- Words that agree on their low `8 * n` bits agree on the lanes below `n`. -/
theorem lane_congr {a a' : Word} {n j : Nat} (h : a.toNat % 2 ^ (8 * n) = a'.toNat % 2 ^ (8 * n)) (hj : j < n) :
    lane a j = lane a' j := by
  have hbit (i : Nat) (hi : i < 8 * n) : a.getLsbD i = a'.getLsbD i := by
    simpa [hi, BitVec.getLsbD] using congrArg (Nat.testBit · i) h
  ext k hk
  simpa [lane, hk] using hbit (8 * j + k) (by omega)

theorem beatBytes_congr {a a' : Word} {nb : BitVec 4}
    (h : a.toNat % 2 ^ (8 * nb.toNat) = a'.toNat % 2 ^ (8 * nb.toNat)) : beatBytes nb a = beatBytes nb a' :=
  List.map_congr_left fun _ hj => lane_congr h (List.mem_range.mp hj)

/-- UPDATE reads its count and the bytes of its beat alone. -/
theorem exec_update_congr {nb : BitVec 4} {a a' : Word} (h : beatBytes nb a = beatBytes nb a') (b b' : Word) (s : State) :
    exec (.update nb a b) s = exec (.update nb a' b') s := by
  simp only [exec, execUpdate, h]

/-- Settles O22: equal effective seeds and equal beats have equal outcomes; NOP and FINAL read no operand. -/
theorem ignoredOperandsChangeNothing : Obligations.IgnoredOperandsChangeNothing := by
  unfold Obligations.IgnoredOperandsChangeNothing
  intro s a a' b b'
  exact ⟨rfl, rfl, fun w hw => exec_init_congr hw a b b' s,
    fun nb h => exec_update_congr (beatBytes_congr h) b b' s⟩

end Sys2Proof.Machine
end

section
/-! The assembler's words (30_encoding.md R83) and the expansion of `update.bytes` (R85). -/

namespace Sys2Proof.Machine

/-! ## The words of a line -/

theorem fieldOf_eq_some {bits n : Nat} (h : n < 2 ^ bits) : fieldOf bits n = some (BitVec.ofNat bits n) := if_pos h

theorem seedField_eq_some {k : Nat} (h : k < 2 ^ 64) : seedField (some k) = some (BitVec.ofNat 64 k) := fieldOf_eq_some h

theorem commandWord_update_ofNat {n : Nat} (hn : n ≤ 8) (a b : Word) :
    commandWord (.update (BitVec.ofNat 4 n) a b) = BitVec.ofNat 32 (0x00000002 + n * 2 ^ 8) := by
  apply BitVec.eq_of_toNat_eq
  rw [commandWord_update_toNat, BitVec.toNat_ofNat, BitVec.toNat_ofNat]
  omega

/-- Settles O53: operands that fit become their fields, and the fields stand at their places in the words. -/
theorem assembledWords : Obligations.AssembledWords := by
  unfold Obligations.AssembledWords
  refine ⟨rfl, rfl, fun k1 k2 h1 h2 => ⟨?w32, ?w64, ?w128⟩, fun n w hn hw => ?update⟩
  case w32 | w64 =>
    simp only [assemble, assembleInit, seedField_eq_some h1]
    rfl
  case w128 =>
    simp only [assemble, assembleInit, seedField_eq_some h1, seedField_eq_some h2]
    rfl
  case update =>
    simp only [assemble, Config.beatBytes, if_pos hn, fieldOf_eq_some hw, encode, commandWord_update_ofNat hn]
    rfl

/-! ## Chunks of eight bytes -/

/-- What the chunks' catch-all clause is left with has fewer than eight bytes. -/
theorem length_lt_eight_of_not_cons8 {bs : List Byte}
    (h : ∀ b0 b1 b2 b3 b4 b5 b6 b7 rest, bs = b0 :: b1 :: b2 :: b3 :: b4 :: b5 :: b6 :: b7 :: rest → False) :
    bs.length < 8 := by
  match bs with
  | [] | [_] | [_, _] | [_, _, _] | [_, _, _, _] | [_, _, _, _, _] | [_, _, _, _, _, _] | [_, _, _, _, _, _, _] => simp
  | _ :: _ :: _ :: _ :: _ :: _ :: _ :: _ :: _ => exact (h _ _ _ _ _ _ _ _ _ rfl).elim

theorem chunks8_flatten (bs : List Byte) : (chunks8 bs).flatten = bs := by
  fun_induction chunks8 bs with
  | case1 _ _ _ _ _ _ _ _ rest ih => simp [ih]
  | case2 => rfl
  | case3 last => simp

theorem chunks8_length (bs : List Byte) : (chunks8 bs).length = (bs.length + 7) / 8 := by
  fun_induction chunks8 bs with
  | case1 _ _ _ _ _ _ _ _ rest ih =>
    simp only [List.length_cons, ih]
    omega
  | case2 => rfl
  | case3 last hlong hne =>
    have hlt := length_lt_eight_of_not_cons8 hlong
    have hpos : 0 < last.length := List.length_pos_of_ne_nil hne
    rw [List.length_singleton]
    omega

theorem length_of_mem_chunks8 {bs c : List Byte} (hc : c ∈ chunks8 bs) : 1 ≤ c.length ∧ c.length ≤ 8 := by
  fun_induction chunks8 bs with
  | case1 _ _ _ _ _ _ _ _ rest ih =>
    rcases List.mem_cons.mp hc with rfl | hrest
    · simp
    · exact ih hrest
  | case2 => cases hc
  | case3 last hlong hne =>
    obtain rfl := List.mem_singleton.mp hc
    exact ⟨List.length_pos_of_ne_nil hne, (length_lt_eight_of_not_cons8 hlong).le⟩

/-- All chunks but the last are full. -/
theorem length_of_mem_dropLast_chunks8 {bs c : List Byte} (hc : c ∈ (chunks8 bs).dropLast) : c.length = 8 := by
  fun_induction chunks8 bs with
  | case1 _ _ _ _ _ _ _ _ rest ih =>
    rcases hrest : chunks8 rest with _ | ⟨c', cs⟩
    · simp [hrest] at hc
    · rw [hrest, List.dropLast_cons_of_ne_nil (List.cons_ne_nil c' cs), ← hrest] at hc
      rcases List.mem_cons.mp hc with rfl | hrest
      · rfl
      · exact ih hrest
  | case2 => cases hc
  | case3 last => cases hc

/-! ## The beats of the chunks -/

/-- The beat that `beatOf` makes of a chunk. -/
def beatFields (c : List Byte) : Beat := (BitVec.ofNat 4 c.length, le64 (c ++ zeros (8 - c.length)))

theorem beatOf_eq (c : List Byte) : beatOf c = .update (beatFields c).1 (beatFields c).2 0#64 := rfl

theorem beatFields_count {c : List Byte} (hc : c.length ≤ 8) : (beatFields c).1.toNat = c.length := by
  rw [beatFields, BitVec.toNat_ofNat]
  omega

/-- Lane `j` of an `LE64` is byte `j`. -/
theorem lane_le64 {bs : List Byte} (hlen : bs.length ≤ 8) {j : Nat} (hj : j < bs.length) : lane (le64 bs) j = bs[j] := by
  have hdigits : ∀ d ∈ bs.map BitVec.toNat, d < 256 := List.forall_mem_map.mpr fun b _ => b.isLt
  have hdrop : (bs.map BitVec.toNat).drop j = bs[j].toNat :: (bs.map BitVec.toNat).drop (j + 1) := by
    rw [List.drop_eq_getElem_cons (by simpa using hj), List.getElem_map]
  have hbyte : bs[j].toNat < 256 := bs[j].isLt
  apply BitVec.eq_of_toNat_eq
  rw [lane, extractByte_toNat, le64_toNat bs hlen, Nat.ofDigits_div_pow_eq_ofDigits_drop j (by decide) _ hdigits, hdrop,
    Nat.ofDigits_cons]
  omega

/-- A chunk's beat carries the chunk. -/
theorem beatBytes_beatFields {chunk : List Byte} (hlen : chunk.length ≤ 8) :
    beatBytes (beatFields chunk).1 (beatFields chunk).2 = chunk := by
  have hcount := beatFields_count hlen
  apply List.ext_getElem
  · rw [beatBytes_length, hcount]
  · intro j _ hj
    have hpad : (chunk ++ zeros (8 - chunk.length)).length ≤ 8 := by simp [zeros]; omega
    have hj' : j < (chunk ++ zeros (8 - chunk.length)).length := by rw [List.length_append]; omega
    calc (beatBytes (beatFields chunk).1 (beatFields chunk).2)[j]
        _ = lane (le64 (chunk ++ zeros (8 - chunk.length))) j := by simp [beatBytes, beatFields]
        _ = (chunk ++ zeros (8 - chunk.length))[j] := lane_le64 hpad hj'
        _ = chunk[j] := List.getElem_append_left hj

/-- Settles O54: one beat for each chunk, which carries the chunk's bytes. -/
theorem updateBytesExpansion : Obligations.UpdateBytesExpansion := by
  unfold Obligations.UpdateBytesExpansion
  intro bs
  refine ⟨(chunks8 bs).map beatFields, ?expansion, ?count, ?bytes, ?full, ?beat⟩
  case expansion => simp only [beatsOf, beatOf_eq, List.map_map, Function.comp_def]
  case count => rw [List.length_map, chunks8_length]
  case bytes =>
    have hcarries : ∀ c ∈ chunks8 bs, beatBytes (beatFields c).1 (beatFields c).2 = c :=
      fun c hc => beatBytes_beatFields (length_of_mem_chunks8 hc).2
    rw [beatsMessage, List.flatMap_map, List.flatMap_def, List.map_congr_left hcarries, List.map_id', chunks8_flatten]
  case full =>
    intro x hx
    rw [← List.map_dropLast] at hx
    obtain ⟨c, hc, rfl⟩ := List.mem_map.mp hx
    rw [beatFields, length_of_mem_dropLast_chunks8 hc]
  case beat =>
    intro x hx
    obtain ⟨c, hc, rfl⟩ := List.mem_map.mp hx
    obtain ⟨hpos, hle⟩ := length_of_mem_chunks8 hc
    rw [beatBytes_beatFields hle, beatFields_count hle]
    exact ⟨hpos, hle, rfl⟩

end Sys2Proof.Machine
end

section
/-! Rot64 (40_mix_core.md R101) is the library's rotation, and the rounds (R102, R103, R111 to R113) are their written-out
lines. -/

namespace Sys2Proof.Machine

/-! ## Rot64 -/

theorem rot64_eq_rotateLeft (x : Word) {k : Nat} (hk : k < 64) : rot64 x k = x.rotateLeft k := by
  rw [rot64, BitVec.rotateLeft_def, Nat.mod_eq_of_lt hk]

/-- Bit `i` moves up by `k` places; past the top (`64 ≤ i + k`) it wraps to `i + k - 64`. -/
theorem rot64_getLsbD (x : Word) {i k : Nat} (hi : i < 64) (hk : k < 64) :
    (rot64 x k).getLsbD ((i + k) % 64) = x.getLsbD i := by
  rw [rot64_eq_rotateLeft x hk, BitVec.getLsbD_rotateLeft, Nat.mod_eq_of_lt hk]
  rcases Nat.lt_or_ge (i + k) 64 with hin | hwrap
  · simp [Nat.mod_eq_of_lt hin, hin]
  · have hplace : (i + k) % 64 = i + k - 64 := by omega
    have hlow : i + k - 64 < k := by omega
    have hback : 64 - k + (i + k - 64) = i := by omega
    simp [hplace, hlow, hback]

/-- Settles O41: the formula is the definition's, and a rotation moves each bit by `k` places, wrapping at 64. -/
theorem rot64RotatesLeft : Obligations.Rot64RotatesLeft := by
  unfold Obligations.Rot64RotatesLeft
  exact ⟨fun x k _ hk => ⟨rfl, fun i hi => rot64_getLsbD x hi (Nat.lt_succ_of_le hk)⟩, by decide⟩

/-! ## The lines of the short rounds -/

theorem shortMixLine_zero (a b c d : Word) (k : Nat) :
    shortMixLine #v[a, b, c, d] (0, k) = #v[a ^^^ (rot64 c k + d), b, rot64 c k + d, d] := rfl
theorem shortMixLine_one (a b c d : Word) (k : Nat) :
    shortMixLine #v[a, b, c, d] (1, k) = #v[a, b ^^^ (rot64 d k + a), c, rot64 d k + a] := rfl
theorem shortMixLine_two (a b c d : Word) (k : Nat) :
    shortMixLine #v[a, b, c, d] (2, k) = #v[rot64 a k + b, b, c ^^^ (rot64 a k + b), d] := rfl
theorem shortMixLine_three (a b c d : Word) (k : Nat) :
    shortMixLine #v[a, b, c, d] (3, k) = #v[a, rot64 b k + c, c, d ^^^ (rot64 b k + c)] := rfl

theorem shortEndLine_zero (a b c d : Word) (k : Nat) :
    shortEndLine #v[a, b, c, d] (0, k) = #v[a, b, rot64 c k, (d ^^^ c) + rot64 c k] := rfl
theorem shortEndLine_one (a b c d : Word) (k : Nat) :
    shortEndLine #v[a, b, c, d] (1, k) = #v[(a ^^^ d) + rot64 d k, b, c, rot64 d k] := rfl
theorem shortEndLine_two (a b c d : Word) (k : Nat) :
    shortEndLine #v[a, b, c, d] (2, k) = #v[rot64 a k, (b ^^^ a) + rot64 a k, c, d] := rfl
theorem shortEndLine_three (a b c d : Word) (k : Nat) :
    shortEndLine #v[a, b, c, d] (3, k) = #v[a, rot64 b k, (c ^^^ b) + rot64 b k, d] := rfl

/-- Settles O42: the indexed lines, run in order on four named words, are the written-out ones. -/
theorem shortMixAsWrittenOut : Obligations.ShortMixAsWrittenOut := by
  unfold Obligations.ShortMixAsWrittenOut
  refine ⟨fun h0 h1 h2 h3 => ?_, by decide +kernel, by decide +kernel⟩
  simp only [shortMix, shortMixLines, List.foldl_cons, List.foldl_nil, shortMixLine_zero, shortMixLine_one,
    shortMixLine_two, shortMixLine_three]

/-- Settles O43: the indexed lines, run in order on four named words, are the written-out ones. -/
theorem shortEndAsWrittenOut : Obligations.ShortEndAsWrittenOut := by
  unfold Obligations.ShortEndAsWrittenOut
  refine ⟨fun h0 h1 h2 h3 => ?_, by decide +kernel, by decide +kernel⟩
  simp only [shortEnd, shortEndLines, List.foldl_cons, List.foldl_nil, shortEndLine_zero, shortEndLine_one,
    shortEndLine_two, shortEndLine_three]

/-! ## The long rounds -/

/-- Running indexed lines is running the functions they stand for: two rounds can then be compared line by line. -/
theorem foldl_eq_foldl_map_lines {σ ι : Type} (line : σ → ι → σ) (iks : List ι) (v : σ) :
    iks.foldl line v = (iks.map fun ik v => line v ik).foldl (fun v line => line v) v := by
  rw [List.foldl_map]

/-- Settles O44: each indexed line unfolds to the written-out one, its indices reduced mod 12. -/
theorem mixAsWrittenOut : Obligations.MixAsWrittenOut := by
  unfold Obligations.MixAsWrittenOut
  refine ⟨fun D S => ?_, by decide +kernel, by decide +kernel, by decide +kernel⟩
  rw [mix, foldl_eq_foldl_map_lines]
  rfl

/-- Settles O45: each indexed line unfolds to the written-out one, its indices reduced mod 12. -/
theorem endPartialAsWrittenOut : Obligations.EndPartialAsWrittenOut := by
  unfold Obligations.EndPartialAsWrittenOut
  refine ⟨fun H => ?_, by decide +kernel, by decide +kernel, by decide +kernel⟩
  rw [endPartial, foldl_eq_foldl_map_lines]
  rfl

/-- Settles O46: the block add is the word-by-word sum. -/
theorem endAddsThenRunsThreeRounds : Obligations.EndAddsThenRunsThreeRounds := by
  unfold Obligations.EndAddsThenRunsThreeRounds
  refine ⟨fun D H A hA => ?_, by decide +kernel, by decide +kernel, by decide +kernel⟩
  have hsum : Vector.zipWith (· + ·) H D = A :=
    Vector.ext fun i hi => (Vector.getElem_zipWith hi).trans (hA ⟨i, hi⟩).symm
  rw [endMix, hsum]

end Sys2Proof.Machine
end

section
/-! The short path's tail (40_mix_core.md R108): padding adds nothing to `LE64`, and the reference's switch adds the tail's bytes
one by one, which is `LE64` again. -/

namespace Sys2Proof.Machine

/-! ## `LE64` of padded and of shifted bytes -/

@[simp] theorem le64_zeros (n : Nat) : le64 (zeros n) = 0#64 := by
  induction n with
  | zero => rfl
  | succ n ih =>
    rw [zeros, List.replicate_succ, le64, ← zeros, ih]
    rfl

@[simp] theorem le64_append_zeros (bs : List Byte) (n : Nat) : le64 (bs ++ zeros n) = le64 bs := by
  induction bs with
  | nil => exact le64_zeros n
  | cons b bs ih => rw [List.cons_append, le64, ih, le64]

theorem le64_take_append_zeros (bs : List Byte) (m n : Nat) : le64 ((bs ++ zeros n).take m) = le64 (bs.take m) := by
  rw [List.take_append, zeros, List.take_replicate]
  exact le64_append_zeros _ _

theorem le64_drop_append_zeros (bs : List Byte) (m n : Nat) : le64 ((bs ++ zeros n).drop m) = le64 (bs.drop m) := by
  rw [List.drop_append, zeros, List.drop_replicate]
  exact le64_append_zeros _ _

/-- Bytes from place `j` on: the first at bit `8 * j`, the others from the next place on. -/
theorem le64_cons_shiftLeft (b : Byte) (bs : List Byte) (j : Nat) :
    le64 (b :: bs) <<< (8 * j) = b.setWidth 64 <<< (8 * j) + le64 bs <<< (8 * (j + 1)) := by
  rw [le64, BitVec.shiftLeft_add_distrib, ← BitVec.shiftLeft_add, Nat.mul_succ, Nat.add_comm 8]

/-! ## The two forms of the tail -/

theorem shortTail_padded {tail : List Byte} (hpos : 1 ≤ tail.length) (hlen : tail.length ≤ 15) (v : Vector Word 4) :
    shortTail tail v =
      #v[v[0], v[1], v[2] + le64 ((tail ++ zeros (16 - tail.length)).take 8),
        v[3] + le64 ((tail ++ zeros (16 - tail.length)).drop 8)] := by
  have hsecond : ((tail ++ zeros (16 - tail.length)).drop 8).length ≤ 8 := by simp [zeros]; omega
  rw [shortTail, if_neg (by omega)]
  simp [wordAt, slice, List.take_of_length_le hsecond]

/-- What the reference's switch does with tail byte `bj.1` at place `bj.2` (R108), as the statement O47 writes it. -/
def addTailByte (u : Vector Word 4) (bj : Byte × Nat) : Vector Word 4 :=
  if bj.2 < 8 then #v[u[0], u[1], u[2] + (bj.1.setWidth 64 <<< (8 * bj.2)), u[3]]
  else #v[u[0], u[1], u[2], u[3] + (bj.1.setWidth 64 <<< (8 * (bj.2 - 8)))]

/-- Bytes at places `j` to 7 add up in `c`. -/
theorem foldl_addTailByte_low (bs : List Byte) (a b c d : Word) {j : Nat} (hj : j + bs.length ≤ 8) :
    (bs.zipIdx j).foldl addTailByte #v[a, b, c, d] = #v[a, b, c + le64 bs <<< (8 * j), d] := by
  induction bs generalizing c j with
  | nil => simp [le64]
  | cons byte bs ih =>
    rw [List.length_cons] at hj
    have hlow : addTailByte #v[a, b, c, d] (byte, j) = #v[a, b, c + byte.setWidth 64 <<< (8 * j), d] :=
      if_pos (by omega)
    rw [List.zipIdx_cons, List.foldl_cons, hlow, ih _ (by omega), le64_cons_shiftLeft, BitVec.add_assoc]

/-- Bytes at places `8 + j` and up add up in `d`. -/
theorem foldl_addTailByte_high (bs : List Byte) (a b c d : Word) (j : Nat) :
    (bs.zipIdx (8 + j)).foldl addTailByte #v[a, b, c, d] = #v[a, b, c, d + le64 bs <<< (8 * j)] := by
  induction bs generalizing d j with
  | nil => simp [le64]
  | cons byte bs ih =>
    have hhigh : addTailByte #v[a, b, c, d] (byte, 8 + j) = #v[a, b, c, d + byte.setWidth 64 <<< (8 * j)] := by
      simp [addTailByte]
    rw [List.zipIdx_cons, List.foldl_cons, hhigh, Nat.add_assoc, ih, le64_cons_shiftLeft, BitVec.add_assoc]

theorem zipIdx_split_at_eight (bs : List Byte) : bs.zipIdx = (bs.take 8).zipIdx ++ (bs.drop 8).zipIdx 8 := by
  rcases Nat.lt_or_ge 8 bs.length with hlong | hshort
  · conv_lhs => rw [← List.take_append_drop 8 bs, List.zipIdx_append]
    rw [List.length_take, Nat.min_eq_left hlong.le, Nat.zero_add]
  · simp [List.take_of_length_le hshort, List.drop_of_length_le hshort]

theorem vector4_eq (v : Vector Word 4) : v = #v[v[0], v[1], v[2], v[3]] :=
  Vector.ext fun i hi => by interval_cases i <;> rfl

/-- The switch, run over the whole tail. -/
theorem foldl_addTailByte (tail : List Byte) (v : Vector Word 4) :
    tail.zipIdx.foldl addTailByte v = #v[v[0], v[1], v[2] + le64 (tail.take 8), v[3] + le64 (tail.drop 8)] :=
  calc tail.zipIdx.foldl addTailByte v
    _ = ((tail.drop 8).zipIdx (8 + 0)).foldl addTailByte
          ((tail.take 8).zipIdx.foldl addTailByte #v[v[0], v[1], v[2], v[3]]) := by
        rw [zipIdx_split_at_eight, List.foldl_append, ← vector4_eq v]
    _ = #v[v[0], v[1], v[2] + le64 (tail.take 8) <<< (8 * 0), v[3] + le64 (tail.drop 8) <<< (8 * 0)] := by
        rw [foldl_addTailByte_low _ _ _ _ _ (by simp), foldl_addTailByte_high]
    _ = #v[v[0], v[1], v[2] + le64 (tail.take 8), v[3] + le64 (tail.drop 8)] := by
        simp only [Nat.mul_zero, BitVec.shiftLeft_zero]

/-- Settles O47: the padding adds nothing to either word, and the switch adds the two words byte by byte. -/
theorem tailSwitchEqualsPaddedAdds : Obligations.TailSwitchEqualsPaddedAdds := by
  unfold Obligations.TailSwitchEqualsPaddedAdds
  intro tail v hpos hlen T
  have hpadded := shortTail_padded hpos hlen v
  refine ⟨by simp [T, zeros]; omega, hpadded, ?switch⟩
  case switch =>
    rw [hpadded, le64_take_append_zeros, le64_drop_append_zeros]
    exact (foldl_addTailByte tail v).symm

end Sys2Proof.Machine
end

section
/-! The long path's final block (40_mix_core.md R116) byte by byte, and the choice between the two paths (R118). -/

namespace Sys2Proof.Machine

/-! ## The final block -/

theorem finalBlock_getElem?_rest {rest : List Byte} {i : Nat} (hi : i < rest.length) :
    (finalBlock rest)[i]? = rest[i]? := by
  rw [finalBlock, List.append_assoc, List.getElem?_append_left hi]

theorem finalBlock_getElem?_padding {rest : List Byte} {i : Nat} (hi : rest.length ≤ i) (h95 : i < 95) :
    (finalBlock rest)[i]? = some 0#8 := by
  have hpad : i - rest.length < 95 - rest.length := by omega
  rw [finalBlock, List.append_assoc, List.getElem?_append_right hi, zeros,
    List.getElem?_append_left (by rwa [List.length_replicate]), List.getElem?_replicate_of_lt hpad]

theorem finalBlock_getElem?_last {rest : List Byte} (hlen : rest.length ≤ 95) :
    (finalBlock rest)[95]? = some (BitVec.ofNat 8 rest.length) := by
  have hfront : 95 = (rest ++ zeros (95 - rest.length)).length := by simp [zeros]; omega
  rw [finalBlock, List.getElem?_append_right hfront.ge, ← hfront, Nat.sub_self, List.getElem?_cons_zero]

/-- Settles O48: what follows the whole blocks has `r` bytes, and the final block of `r` bytes has the layout. -/
theorem finalBlockLayout : Obligations.FinalBlockLayout := by
  unfold Obligations.FinalBlockLayout
  intro M _ n r B
  have hrest : (M.drop (96 * n)).length = r := by rw [List.length_drop]; omega
  have hr : r ≤ 95 := by omega
  refine ⟨finalBlock_length _ (hrest ▸ hr), fun i hi => ?rest, fun i hi h95 => ?padding, ?last⟩
  case rest => rw [finalBlock_getElem?_rest (hrest ▸ hi), List.getElem?_drop]
  case padding => exact finalBlock_getElem?_padding (hrest ▸ hi) h95
  case last => rw [← hrest, finalBlock_getElem?_last (hrest ▸ hr)]

/-! ## Selection -/

theorem hash128_of_lt {M : List Byte} (h : M.length < 192) (s1 s2 : Word) : hash128 M s1 s2 = short M s1 s2 := if_pos h

theorem hash128_of_ge {M : List Byte} (h : 192 ≤ M.length) (s1 s2 : Word) : hash128 M s1 s2 = long M s1 s2 :=
  if_neg (Nat.not_lt.mpr h)

/-- Settles O50: the two branches of the selection. -/
theorem hash128SelectsAtTheThreshold : Obligations.Hash128SelectsAtTheThreshold := by
  unfold Obligations.Hash128SelectsAtTheThreshold
  exact fun M s1 s2 => ⟨fun h => hash128_of_lt h s1 s2, fun h => hash128_of_ge h s1 s2⟩

end Sys2Proof.Machine
end

section
/-! Command words by their fields (30_encoding.md R71), for the words the stream buffer's rules name as illegal. -/

namespace Sys2Proof.Machine

theorem extractLsb_toNat (cmd : BitVec 32) (hi lo : Nat) :
    (cmd.extractLsb hi lo).toNat = cmd.toNat / 2 ^ lo % 2 ^ (hi - lo + 1) := cmdField_toNat cmd hi lo

theorem opNumber_of_field {cmd : BitVec 32} {op : BitVec 4} (h : cmd.extractLsb 3 0 = op) : opNumber cmd = op.toNat := by
  rw [← h, extractLsb_toNat, pow_zero, Nat.div_one]
  rfl

/-- A field that is not 0 has a number that is not 0. -/
theorem fieldNumber_ne_zero {cmd : BitVec 32} {hi lo : Nat} (h : cmd.extractLsb hi lo ≠ 0) :
    cmd.toNat / 2 ^ lo % 2 ^ (hi - lo + 1) ≠ 0 := by
  intro h0
  apply h
  apply BitVec.eq_of_toNat_eq
  rw [extractLsb_toNat, h0]
  rfl

/-- A field from bit `lo` on that is not 0 leaves something of the word's number above `lo`. -/
theorem div_ne_zero_of_field {cmd : BitVec 32} {hi lo : Nat} (h : cmd.extractLsb hi lo ≠ 0) : cmd.toNat / 2 ^ lo ≠ 0 :=
  fun h0 => fieldNumber_ne_zero h (by rw [h0, Nat.zero_mod])

/-- An illegal word is taken from the sequence and raises `IllegalCommand` (R78, R140). -/
theorem step_illegalWord {s : State} {cmd : BitVec 32} {a b : Word} {rest : List HostEvent}
    (hin : s.inbox = .port (.command cmd a b) :: rest) (hill : illegalWord cmd) :
    step s = .next (raiseError .illegalCommand (takeEvent rest s)) := by
  obtain ⟨e, he⟩ := (illegalWord_iff_decode_error cmd a b).mp hill
  exact step_port_refused hin he

/-- NOP and FINAL have no field but the opcode. -/
theorem illegalWord_nop_or_final {cmd : BitVec 32} (hop : cmd.extractLsb 3 0 = 0#4 ∨ cmd.extractLsb 3 0 = 3#4)
    (hres : cmd.extractLsb 31 4 ≠ 0#28) : illegalWord cmd :=
  .inr (.inl ⟨hop.imp opNumber_of_field opNumber_of_field, div_ne_zero_of_field hres⟩)

theorem illegalWord_init {cmd : BitVec 32} (hop : cmd.extractLsb 3 0 = 1#4) (hres : cmd.extractLsb 31 6 ≠ 0#26) :
    illegalWord cmd :=
  .inr (.inr (.inl ⟨opNumber_of_field hop, div_ne_zero_of_field hres⟩))

theorem illegalWord_update {cmd : BitVec 32} (hop : cmd.extractLsb 3 0 = 2#4)
    (hbad : cmd.extractLsb 31 12 ≠ 0#20 ∨ cmd.extractLsb 7 4 ≠ 0#4 ∨ 8 < (cmd.extractLsb 11 8).toNat) :
    illegalWord cmd := by
  refine .inr (.inr (.inr ⟨opNumber_of_field hop, ?_⟩))
  obtain hhigh | hlow | hcount := hbad
  · exact .inl (div_ne_zero_of_field hhigh)
  · exact .inr (.inl (fieldNumber_ne_zero hlow))
  · rw [extractLsb_toNat] at hcount
    exact .inr (.inr hcount)

end Sys2Proof.Machine
end

section
/-! The commands and reads that touch no message: NOP (41_stream_buffer.md R141), INIT (R142) and the read port (R150). -/

namespace Sys2Proof.Machine

/-- The reserved selectors read 0 (R150). -/
theorem readPort_reserved {sel : BitVec 3} (h : 4 ≤ sel.toNat) (s : State) : readPort sel s = 0#64 := by
  have hne (k : BitVec 3) (hk : k.toNat < 4) : sel ≠ k := by
    rintro rfl
    omega
  rw [readPort, if_neg (hne 0#3 (by decide)), if_neg (hne 1#3 (by decide)), if_neg (hne 2#3 (by decide)),
    if_neg (hne 3#3 (by decide))]

/-- Settles O5: a read records its selector's value and writes nothing else; the last selectors are reserved. -/
theorem readPortMap : Obligations.ReadPortMap := by
  unfold Obligations.ReadPortMap
  refine fun s => ⟨rfl, rfl, rfl, rfl, fun sel hsel => ?_⟩
  rw [← readPort_reserved hsel s]
  rfl

/-- Settles O15: NOP only completes, and its word with a reserved bit set is illegal. -/
theorem nopWritesErrOnly : Obligations.NopWritesErrOnly := by
  unfold Obligations.NopWritesErrOnly
  refine ⟨fun s a b => ⟨rfl, rfl⟩, fun s cmd a b rest hin hop hres => ?_⟩
  exact step_illegalWord hin (illegalWord_nop_or_final (.inl hop) hres)

theorem commandWord_init_eq (w : BitVec 2) (a b : Word) :
    commandWord (.init w a b) = BitVec.ofNat 32 (0x00000001 + w.toNat * 2 ^ 4) := by
  apply BitVec.eq_of_toNat_eq
  rw [commandWord_init_toNat, BitVec.toNat_ofNat]
  omega

/-- Settles O16: each legal code names its width, whose effective seeds start the hash. -/
theorem initStartsAHash : Obligations.InitStartsAHash := by
  unfold Obligations.InitStartsAHash
  refine ⟨fun w a b => ?word, fun s a b => ⟨?w128, ?w64, ?w32, ?illegal⟩, fun s cmd a b rest hin hop hres => ?reserved⟩
  case word => rw [encode, commandWord_init_eq]
  case w128 => exact exec_init_legal (width := .w128) rfl a b s
  case w64 => exact exec_init_legal (width := .w64) rfl a b s
  case w32 => exact exec_init_legal (width := .w32) rfl a b s
  case illegal => rfl
  case reserved => exact step_illegalWord hin (illegalWord_init hop hres)

end Sys2Proof.Machine
end

section
/-! APPEND and UPDATE (41_stream_buffer.md R143 to R146): where each byte lands, what a flush writes, and the frame of both. -/

namespace Sys2Proof.Machine

/-! ## APPEND -/

theorem storeByte_eq {s : State} (hroom : s.len.toNat < 2 ^ 64 - 1) (b : Byte) :
    storeByte s b =
      { s with buf := s.buf.setIfInBounds (rem s.len) b, len := BitVec.ofNat 64 (s.len.toNat + 1) } := by
  have hlen : s.len + 1 = BitVec.ofNat 64 (s.len.toNat + 1) := by
    rw [← storeByte_len s b, ← storeByte_len_toNat hroom b, BitVec.ofNat_toNat, BitVec.setWidth_eq]
  rw [storeByte, hlen]

/-- Settles O20: the length after the store is one of LONG_ENTRY's, FLUSH's and neither's. -/
theorem appendFollowsTheFlushMachine : Obligations.AppendFollowsTheFlushMachine := by
  unfold Obligations.AppendFollowsTheFlushMachine
  intro s b hroom stored
  have hlen : (storeByte s b).len.toNat = s.len.toNat + 1 := storeByte_len_toNat hroom b
  have hstored : storeByte s b = stored := storeByte_eq hroom b
  refine ⟨rem_lt s.len, fun h192 => ?longEntry, fun hlong hblock => ?flush, fun hne hnot => ?quiet⟩
  case longEntry =>
    rw [appendByte, flushIfDue_at_thresh (by rw [hlen, h192]), hstored]
    rfl
  case flush =>
    rw [appendByte, flushIfDue_at_block (by rw [hlen]; exact hlong) (by rw [hlen]; exact hblock), hstored]
    rfl
  case quiet =>
    rw [appendByte, flushIfDue_quiet (by omega), hstored]

/-! ## The loop of UPDATE -/

theorem len_add_succ (len : Word) (j : Nat) : len + BitVec.ofNat 64 (j + 1) = len + 1 + BitVec.ofNat 64 j := by
  have h1 : (1 : Word).toNat = 1 := rfl
  apply BitVec.eq_of_toNat_eq
  simp only [BitVec.toNat_add, BitVec.toNat_ofNat, h1]
  omega

/-- Fewer than 96 bytes further on, the index in `buf` is a different one. -/
theorem rem_ne_rem_add {len : Word} {d : Nat} (hpos : 0 < d) (hlt : d < 96) (hroom : len.toNat + d < 2 ^ 64) :
    rem len ≠ rem (len + BitVec.ofNat 64 d) := by
  have hadd : (len + BitVec.ofNat 64 d).toNat = len.toNat + d := by
    rw [BitVec.toNat_add, BitVec.toNat_ofNat]
    omega
  simp only [rem, Config.thresh, Config.block, hadd]
  split <;> split <;> omega

theorem appendByte_buf_self (s : State) (b : Byte) : (appendByte s b).buf.toList[rem s.len]? = some b := by
  rw [appendByte_buf, Vector.toList_setIfInBounds, List.getElem?_set_self]
  rw [Vector.length_toList]
  exact rem_lt s.len

theorem appendByte_buf_ne {s : State} {k : Nat} (hk : k ≠ rem s.len) (b : Byte) :
    (appendByte s b).buf.toList[k]? = s.buf.toList[k]? := by
  rw [appendByte_buf, Vector.toList_setIfInBounds, List.getElem?_set_ne hk.symm]

/-- The loop writes the indices of its own bytes alone. -/
theorem appendBytes_buf_ne {s : State} {bs : List Byte} {k : Nat}
    (hk : ∀ j, j < bs.length → k ≠ rem (s.len + BitVec.ofNat 64 j)) :
    (appendBytes s bs).buf.toList[k]? = s.buf.toList[k]? := by
  induction bs generalizing s with
  | nil => rfl
  | cons b bs ih =>
    have hfirst : k ≠ rem s.len := by simpa using hk 0 (by simp)
    have hrest : ∀ j, j < bs.length → k ≠ rem ((appendByte s b).len + BitVec.ofNat 64 j) := fun j hj => by
      rw [appendByte_len, ← len_add_succ]
      exact hk (j + 1) (by simpa using hj)
    rw [appendBytes_cons, ih hrest, appendByte_buf_ne hfirst]

/-- Up to 96 bytes, the loop leaves each of its bytes at the index `rem` gives it: no later byte lands on it. -/
theorem appendBytes_buf_getElem {s : State} {bs : List Byte} (hlen : bs.length ≤ 96)
    (hroom : s.len.toNat + bs.length ≤ 2 ^ 64 - 1) {j : Nat} (hj : j < bs.length) :
    (appendBytes s bs).buf.toList[rem (s.len + BitVec.ofNat 64 j)]? = some bs[j] := by
  induction bs generalizing s j with
  | nil => cases hj
  | cons b bs ih =>
    rw [List.length_cons] at hlen hroom hj
    rw [appendBytes_cons]
    cases j with
    | zero =>
      have hlater : ∀ i, i < bs.length → rem s.len ≠ rem ((appendByte s b).len + BitVec.ofNat 64 i) := fun i hi => by
        rw [appendByte_len, ← len_add_succ]
        exact rem_ne_rem_add (by omega) (by omega) (by omega)
      simpa using (appendBytes_buf_ne hlater).trans (appendByte_buf_self s b)
    | succ j =>
      have hroom' : (appendByte s b).len.toNat + bs.length ≤ 2 ^ 64 - 1 := by
        rw [appendByte_len, ← storeByte_len s b, storeByte_len_toNat (by omega)]
        omega
      rw [len_add_succ, ← appendByte_len s b]
      exact ih (by omega) hroom' (by omega)

/-- The loop leaves `h` alone when it reaches no flush point. -/
theorem appendBytes_h_quiet {s : State} {bs : List Byte} (hroom : s.len.toNat + bs.length ≤ 2 ^ 64 - 1)
    (hquiet : ∀ m, s.len.toNat < m → m ≤ s.len.toNat + bs.length → ¬ (192 ≤ m ∧ m % 96 = 0)) :
    (appendBytes s bs).h = s.h := by
  induction bs generalizing s with
  | nil => rfl
  | cons b bs ih =>
    rw [List.length_cons] at hroom hquiet
    have hlen : (storeByte s b).len.toNat = s.len.toNat + 1 := storeByte_len_toNat (by omega) b
    have hfirst : appendByte s b = storeByte s b :=
      flushIfDue_quiet (by rw [hlen]; exact hquiet _ (by omega) (by omega))
    rw [appendBytes_cons, hfirst, ih (by omega) fun m hlow hhigh => hquiet m (by omega) (by omega), storeByte_h]

/-! ## UPDATE -/

theorem commandWord_update_eq (nb : BitVec 4) (a b : Word) :
    commandWord (.update nb a b) = BitVec.ofNat 32 (0x00000002 + nb.toNat * 2 ^ 8) := by
  apply BitVec.eq_of_toNat_eq
  rw [commandWord_update_toNat, BitVec.toNat_ofNat]
  omega

theorem appendBytes_beatBytes (s : State) (nb : BitVec 4) (a : Word) :
    appendBytes s (beatBytes nb a) = (List.range nb.toNat).foldl (fun u j => appendByte u (a.extractLsb' (8 * j) 8)) s :=
  List.foldl_map

/-- Settles O18: the checks of UPDATE in order, each with its answer, and the loop over the beat's lanes. -/
theorem updateAppendsTheBeat : Obligations.UpdateAppendsTheBeat := by
  unfold Obligations.UpdateAppendsTheBeat
  refine ⟨fun nb a b => ?word, fun s nb a b h8 => ⟨fun hlc hroom => ?room, fun hlc => ?inactive, fun hlc hfull => ?full⟩,
    fun s cmd a b rest hin hop hbad => ?reserved⟩
  case word => rw [encode, commandWord_update_eq]
  case room =>
    rw [exec_update_room h8 hlc hroom, appendBytes_beatBytes]
    rfl
  case inactive => exact exec_update_inactive h8 hlc a b
  case full => exact exec_update_overflow h8 hlc hfull a b
  case reserved => exact step_illegalWord hin (illegalWord_update hop hbad)

/-- Settles O19: the frame of the loop over the beat's bytes, and the index each of them lands on. -/
theorem updateFrame : Obligations.UpdateFrame := by
  unfold Obligations.UpdateFrame
  intro s nb a b h8 hlc hroom
  have hcount : (beatBytes nb a).length = nb.toNat := beatBytes_length nb a
  rw [← hcount] at h8 ⊢
  have hroom' : s.len.toNat + (beatBytes nb a).length ≤ 2 ^ 64 - 1 := by rw [hcount]; exact hroom
  refine ⟨_, exec_update_room (hcount ▸ h8) hlc hroom a b, congrArg complete (appendBytes_frame s (beatBytes nb a)),
    appendBytes_len_toNat hroom', fun j hj => ?written, fun k hk => appendBytes_buf_ne hk, appendBytes_h_quiet hroom'⟩
  have hlane : (beatBytes nb a)[j] = lane a j := by simp [beatBytes]
  rw [← hlane]
  exact appendBytes_buf_getElem (by omega) hroom' hj

/-- Settles O21: an empty beat has room in every `ACTIVE` state and no bytes. -/
theorem emptyBeat : Obligations.EmptyBeat := by
  unfold Obligations.EmptyBeat
  refine fun s a b => ⟨fun hlc => ?_, fun hlc => exec_update_inactive (by decide) hlc a b⟩
  exact exec_update_room (nb := 0#4) (by decide) hlc (Nat.le_pred_of_lt s.len.isLt) a b

end Sys2Proof.Machine
end

section
/-! FINAL (41_stream_buffer.md R147 to R149): the digest it publishes, from the state and from the message the state holds. -/

namespace Sys2Proof.Machine

theorem bufSlice_zero_length (s : State) {n : Nat} (h : n ≤ 192) : (bufSlice s 0 n).length = n := by
  rw [bufSlice, slice_zero, List.length_take, Vector.length_toList, Nat.min_eq_left h]

theorem finalHash_short {s : State} (h : s.len.toNat < 192) :
    finalHash s = short (bufSlice s 0 s.len.toNat) s.h[0] s.h[1] := if_pos h

/-- From 192 bytes on FINAL runs End on the rest, zeros and the rest's length (R149). -/
theorem finalHash_long {s : State} (h : 192 ≤ s.len.toNat) :
    finalHash s = longEnd (bufSlice s 0 (s.len.toNat % 96)) s.h := if_neg (Nat.not_lt.mpr h)

theorem finalBlock_bufSlice (s : State) {r : Nat} (h : r ≤ 192) :
    finalBlock (bufSlice s 0 r) = bufSlice s 0 r ++ zeros (95 - r) ++ [BitVec.ofNat 8 r] := by
  rw [finalBlock, bufSlice_zero_length s h]

/-- Settles O24: the two paths of FINAL's choice, and its checks. -/
theorem finalPublishesTheDigest : Obligations.FinalPublishesTheDigest := by
  unfold Obligations.FinalPublishesTheDigest
  refine ⟨fun a b => rfl, fun s a b => ?_,
    fun s cmd a b rest hin hop hres => step_illegalWord hin (illegalWord_nop_or_final (.inr hop) hres)⟩
  intro published r B
  refine ⟨fun hlc hlt => ?short, fun hlc hge => ?long, fun hlc => exec_final_inactive hlc a b⟩
  case short =>
    rw [exec_final_active hlc, finalHash_short hlt]
    rfl
  case long =>
    have hB : finalBlock (bufSlice s 0 r) = B := finalBlock_bufSlice s (by omega)
    rw [exec_final_active hlc, finalHash_long hge, longEnd, hB]
    rfl

/-- Settles O26: the digest FINAL publishes is of `finalHash`, which is `Hash128` of the message held. -/
theorem finalHashesTheHeldMessage : Obligations.FinalHashesTheHeldMessage := by
  unfold Obligations.FinalHashesTheHeldMessage
  intro M e1 e2 s a b hs hlc
  refine ⟨_, exec_final_active hlc a b, ?_, hs.length, rfl, rfl, rfl, rfl⟩
  rw [← hs.finalHash]
  rfl

end Sys2Proof.Machine
end

section
/-! A hash as the host sends it (41_stream_buffer.md R153, R158): a run of beats is one loop over their bytes, however they are
split, and INIT, beats and FINAL publish `Hash128` of those bytes. -/

namespace Sys2Proof.Machine

/-! ## The loop of UPDATE beside the fields it does not touch -/

@[simp] theorem appendBytes_lc (s : State) (bs : List Byte) : (appendBytes s bs).lc = s.lc := by rw [appendBytes_frame]
@[simp] theorem appendBytes_wsel (s : State) (bs : List Byte) : (appendBytes s bs).wsel = s.wsel := by
  rw [appendBytes_frame]
@[simp] theorem appendBytes_sticky (s : State) (bs : List Byte) : (appendBytes s bs).sticky = s.sticky := by
  rw [appendBytes_frame]
@[simp] theorem appendBytes_reads (s : State) (bs : List Byte) : (appendBytes s bs).reads = s.reads := by
  rw [appendBytes_frame]
@[simp] theorem appendBytes_inbox (s : State) (bs : List Byte) : (appendBytes s bs).inbox = s.inbox := by
  rw [appendBytes_frame]

theorem appendBytes_withErrInbox (s : State) (e : ErrCode) (events : List HostEvent) (bs : List Byte) :
    appendBytes { s with err := e, inbox := events } bs = { appendBytes s bs with err := e, inbox := events } := by
  obtain ⟨hh, hbuf, hlen⟩ := appendBytes_congr (s := { s with err := e, inbox := events }) (t := s) rfl rfl rfl bs
  rw [appendBytes_frame { s with err := e, inbox := events }, appendBytes_frame s, hh, hbuf, hlen]

/-- An UPDATE's result is the same whatever `err` was and whatever is still to come. -/
theorem complete_appendBytes_sending (ts : List Transaction) (s : State) (bs : List Byte) :
    complete (appendBytes (sending ts s) bs) = sending ts (complete (appendBytes s bs)) :=
  (congrArg complete (appendBytes_withErrInbox s s.err (ts.map .port) bs)).trans rfl

@[simp] theorem complete_complete (s : State) : complete (complete s) = complete s := rfl

theorem appendBytes_complete (s : State) (bs : List Byte) : appendBytes (complete s) bs = complete (appendBytes s bs) := by
  refine (appendBytes_withErrInbox s .ok s.inbox bs).trans ?_
  simp only [complete, appendBytes_inbox]

/-! ## Runs of transactions -/

theorem runAll_sending_nil (s : State) : runAll (sending [] s) = .next (sending [] s) := rfl

/-- The first transaction of a sequence is executed, and the run goes on with the others. -/
theorem runAll_sending_cons {tr : Transaction} {i : Instr} (hd : decode tr = .ok i) {ts : List Transaction} {s t : State}
    (h : exec i (sending ts s) = .next (sending ts t)) : runAll (sending (tr :: ts) s) = runAll (sending ts t) := by
  have hstep : step (sending (tr :: ts) s) = .next (sending ts t) := (step_port rfl hd).trans h
  simp only [runAll, sending_inbox, List.map_cons, List.length_cons]
  exact run_succ hstep _

theorem decode_encode_update {nb : BitVec 4} (h8 : nb.toNat ≤ 8) (a b : Word) :
    decode (encode (.update nb a b)) = .ok (.update nb a b) :=
  decode_encode (decide_eq_true h8)

/-! ## A run of beats -/

theorem beatsMessage_cons (x : Beat) (xs : List Beat) : beatsMessage (x :: xs) = beatBytes x.1 x.2 ++ beatsMessage xs := rfl

theorem runAll_beat {x : Beat} (h8 : x.1.toNat ≤ 8) {s : State} (hlc : s.lc = .active)
    (hroom : s.len.toNat + x.1.toNat ≤ 2 ^ 64 - 1) (ts : List Transaction) :
    runAll (sending (encode (.update x.1 x.2 0#64) :: ts) s) =
      runAll (sending ts (complete (appendBytes s (beatBytes x.1 x.2)))) := by
  apply runAll_sending_cons (decode_encode_update h8 x.2 0#64)
  rw [exec_update_room (s := sending ts s) h8 hlc hroom, complete_appendBytes_sending]

/-- A run of beats after a command that completed is one loop over their bytes. -/
theorem runAll_beats {beats : List Beat} (h8 : ∀ x ∈ beats, x.1.toNat ≤ 8) {s : State} (hlc : s.lc = .active)
    (hroom : s.len.toNat + (beatsMessage beats).length ≤ 2 ^ 64 - 1) (ts : List Transaction) :
    runAll (sending (beats.map (fun x => encode (.update x.1 x.2 0#64)) ++ ts) (complete s)) =
      runAll (sending ts (complete (appendBytes s (beatsMessage beats)))) := by
  induction beats generalizing s with
  | nil => rfl
  | cons x xs ih =>
    obtain ⟨hx, hxs⟩ := List.forall_mem_cons.mp h8
    rw [beatsMessage_cons, List.length_append, beatBytes_length] at hroom
    have hlen : (appendBytes s (beatBytes x.1 x.2)).len.toNat = s.len.toNat + x.1.toNat := by
      rw [appendBytes_len_toNat (by rw [beatBytes_length]; omega), beatBytes_length]
    rw [List.map_cons, List.cons_append, runAll_beat (s := complete s) hx hlc (by rw [complete_len]; omega),
      appendBytes_complete, complete_complete, beatsMessage_cons, appendBytes_append]
    exact ih hxs (by rw [appendBytes_lc, hlc]) (by omega)

/-- A run of at least one beat is one loop over their bytes, from any `ACTIVE` state with room. -/
theorem runAll_beats_of_ne_nil {beats : List Beat} (hne : beats ≠ []) (h8 : ∀ x ∈ beats, x.1.toNat ≤ 8) {s : State}
    (hlc : s.lc = .active) (hroom : s.len.toNat + (beatsMessage beats).length ≤ 2 ^ 64 - 1) :
    runAll (sending (beats.map fun x => encode (.update x.1 x.2 0#64)) s) =
      .next (sending [] (complete (appendBytes s (beatsMessage beats)))) := by
  have herr : runAll (sending (beats.map fun x => encode (.update x.1 x.2 0#64)) s) =
      runAll (sending (beats.map fun x => encode (.update x.1 x.2 0#64)) (complete s)) := by
    obtain ⟨x, xs, rfl⟩ := List.exists_cons_of_ne_nil hne
    have hx : x.1.toNat ≤ 8 := h8 x List.mem_cons_self
    rw [beatsMessage_cons, List.length_append, beatBytes_length] at hroom
    rw [List.map_cons, runAll_beat hx hlc (by omega), runAll_beat (s := complete s) hx hlc (by rw [complete_len]; omega),
      appendBytes_complete, complete_complete]
  rw [herr, ← List.append_nil (beats.map _), runAll_beats h8 hlc hroom, runAll_sending_nil]

/-- Settles O23: both runs are the same loop over the same bytes. -/
theorem splitsOfAMessageAgree : Obligations.SplitsOfAMessageAgree := by
  unfold Obligations.SplitsOfAMessageAgree
  intro s xs ys hxs hys hx8 hy8 hsame hlc hroom
  refine ⟨_, runAll_beats_of_ne_nil hxs hx8 hlc hroom, ?_, rfl, appendBytes_sticky s _⟩
  rw [hsame] at hroom ⊢
  exact runAll_beats_of_ne_nil hys hy8 hlc hroom

/-! ## INIT, beats, FINAL -/

/-- INIT and the beats lead to the loop of UPDATE over all their bytes from INIT's state, with FINAL still to come. -/
theorem runAll_hashSequence {w : BitVec 2} {width : Width} (hw : widthOf w = some width) (a b : Word) {beats : List Beat}
    (h8 : ∀ x ∈ beats, x.1.toNat ≤ 8) (hroom : (beatsMessage beats).length ≤ 2 ^ 64 - 1) (s : State) :
    runAll (sending (hashSequence w a b beats) s) =
      runAll (sending [encode (.final 0#64 0#64)]
        (complete (appendBytes (startHash width (seedSelect Config.h32SeedMode width a b) s) (beatsMessage beats)))) := by
  have hinit (ts : List Transaction) : runAll (sending (encode (.init w a b) :: ts) s) =
      runAll (sending ts (complete (startHash width (seedSelect Config.h32SeedMode width a b) s))) :=
    runAll_sending_cons (decode_encode rfl) (exec_init_legal hw a b (sending ts s))
  rw [hashSequence, List.cons_append, hinit, runAll_beats h8 (startHash_lc ..) (by simpa using hroom)]

/-- A last FINAL publishes `Hash128` of the message held and ends the run. -/
theorem runAll_final {M : List Byte} {e1 e2 : Word} {s : State} (hs : HoldsMessage M e1 e2 s) (hlc : s.lc = .active) :
    runAll (sending [encode (.final 0#64 0#64)] s) =
      .next (sending [] (complete (publishDigest (hash128 M e1 e2) s))) := by
  have hheld : HoldsMessage M e1 e2 (sending [] s) := hs.congr rfl rfl rfl
  have hfinal : exec (.final 0#64 0#64) (sending [] s) =
      .next (sending [] (complete (publishDigest (hash128 M e1 e2) s))) := by
    rw [exec_final_active (s := sending [] s) hlc, hheld.finalHash]
    rfl
  rw [runAll_sending_cons (decode_encode rfl) hfinal, runAll_sending_nil]

/-- One hash, at each width: the digest, and what else the host finds after it (R153, R158). -/
theorem runAll_hashSequence_publishes {w : BitVec 2} {width : Width} (hw : widthOf w = some width) (a b : Word)
    {beats : List Beat} (h8 : ∀ x ∈ beats, x.1.toNat ≤ 8) (hroom : (beatsMessage beats).length ≤ 2 ^ 64 - 1) (s : State) :
    ∃ t, runAll (sending (hashSequence w a b beats) s) = .next t ∧
      (t.dig0, t.dig1) = formatDigest width (hash128 (beatsMessage beats)
        (seedSelect Config.h32SeedMode width a b).1 (seedSelect Config.h32SeedMode width a b).2) ∧
      t.len.toNat = (beatsMessage beats).length ∧ t.dvalid = true ∧ t.lc = .finalized ∧ t.err = .ok ∧
      t.sticky = s.sticky ∧ t.reads = s.reads := by
  have hheld := (holdsMessage_startHash width (seedSelect Config.h32SeedMode width a b) s).appendBytes
    (beatsMessage beats) (by simpa using hroom)
  rw [List.nil_append] at hheld
  refine ⟨_, (runAll_hashSequence hw a b h8 hroom s).trans (runAll_final (hheld.congr rfl rfl rfl) ?active), ?after⟩
  case active => simp
  case after => simp [hheld.length]

/-- Settles O27: the run above at width 128, whose effective seeds are the seeds and whose digest is both words. -/
theorem chunkInvariance : Obligations.ChunkInvariance := by
  unfold Obligations.ChunkInvariance
  intro s s1 s2 beats h8 hroom
  exact runAll_hashSequence_publishes (width := .w128) rfl s1 s2 h8 hroom s

end Sys2Proof.Machine
end

section
/-! The lifecycle (41_stream_buffer.md R151, R152, R156, R157): what an instruction other than a legal INIT leaves as it was. -/

namespace Sys2Proof.Machine

/-- Without a legal INIT, an instruction writes `err`, `sticky` and the returned reads alone, or it is an UPDATE or a FINAL
that completes in `ACTIVE`. -/
theorem exec_cases_of_no_init {i : Instr} {s t : State} (h : exec i s = .next t)
    (hinit : ∀ w a b, i = .init w a b → w = 0b11#2) :
    t = { s with err := t.err, sticky := t.sticky, reads := t.reads } ∨
    (s.lc = .active ∧ ∃ bs, s.len.toNat + bs.length ≤ 2 ^ 64 - 1 ∧ t = complete (appendBytes s bs)) ∨
    (s.lc = .active ∧ t = complete (publishDigest (finalHash s) s)) := by
  obtain ⟨_, _, -, hx⟩ | ⟨w, _, a, b, hi, hw, hx⟩ | ⟨_, _, -, hx⟩ | ⟨_, _, _, -, -, hx⟩ | ⟨_, _, _, -, -, -, hx⟩ |
    ⟨_, _, _, -, -, -, -, hx⟩ | ⟨nb, a, _, -, -, hlc, hroom, hx⟩ | ⟨_, _, -, -, hx⟩ | ⟨_, _, -, hlc, hx⟩ | ⟨_, -, hx⟩ :=
    exec_cases i s <;> cases hx.symm.trans h
  · exact .inl rfl
  · exact absurd ((widthOf_eq_none_iff w).mpr (hinit w a b hi)) (by simp [hw])
  · exact .inl rfl
  · exact .inl rfl
  · exact .inl rfl
  · exact .inl rfl
  · exact .inr (.inl ⟨hlc, beatBytes nb a, by rw [beatBytes_length]; exact hroom, rfl⟩)
  · exact .inl rfl
  · exact .inr (.inr ⟨hlc, rfl⟩)
  · exact .inl rfl

/-! ## The table -/

theorem step_reset {s : State} {x : Option Transaction} {rest : List HostEvent} (hin : s.inbox = .reset x :: rest) :
    step s = .next (resetEngine (takeEvent rest s)) := by
  simp only [step, hin]

/-- Settles O34: each column is one guarded equation of `exec`, or a refused word, or the reset event. -/
theorem lifecycleTable : Obligations.LifecycleTable := by
  unfold Obligations.LifecycleTable
  intro s a b goes
  refine ⟨⟨_, rfl, rfl, rfl⟩, fun w hw => ?init, ⟨_, rfl, rfl, rfl⟩,
    fun nb h8 => ⟨fun hlc => ?inactive, fun hlc hroom => ?room, fun hlc hfull => ?full⟩,
    fun hlc => ⟨_, exec_final_inactive hlc a b, rfl, rfl⟩, fun hlc => ⟨_, exec_final_active hlc a b, rfl, rfl⟩,
    fun cmd rest hin hill => ⟨_, step_illegalWord hin hill, rfl, rfl⟩, fun x rest hin => ⟨_, step_reset hin, rfl⟩⟩
  case init =>
    obtain ⟨width, hwidth⟩ := Option.ne_none_iff_exists'.mp (mt (widthOf_eq_none_iff w).mp hw)
    exact ⟨_, exec_init_legal hwidth a b s, rfl, rfl⟩
  case inactive => exact ⟨_, exec_update_inactive h8 hlc a b, rfl, rfl⟩
  case room => exact ⟨_, exec_update_room h8 hlc hroom a b, (appendBytes_lc s _).trans hlc, rfl⟩
  case full => exact ⟨_, exec_update_overflow h8 hlc hfull a b, hlc, rfl⟩

/-! ## After FINAL -/

/-- In `FINALIZED`, without a legal INIT, a transaction writes `err`, `sticky` and the returned reads alone. -/
theorem step_finalized {s : State} (hlc : s.lc = .finalized) {tr : Transaction} {rest : List HostEvent}
    (hin : s.inbox = .port tr :: rest) (hno : ∀ w a b, decode tr = .ok (.init w a b) → w = 0b11#2) :
    ∃ t, step s = .next t ∧ t = { s with err := t.err, sticky := t.sticky, inbox := rest, reads := t.reads } := by
  cases hd : decode tr with
  | error e => exact ⟨_, step_port_refused hin hd, rfl⟩
  | ok i =>
    obtain ⟨t, ht⟩ := exec_next i (takeEvent rest s)
    refine ⟨t, (step_port hin hd).trans ht, ?_⟩
    obtain hframe | ⟨hact, -⟩ | ⟨hact, -⟩ := exec_cases_of_no_init ht fun w a b hi => hno w a b (hi ▸ hd)
    · exact hframe
    · cases hlc.symm.trans hact
    · cases hlc.symm.trans hact

/-- A run of transactions without a legal INIT keeps all that FINAL published. -/
theorem run_finalized {ts : List Transaction} (hno : ∀ tr ∈ ts, ∀ w a b, decode tr = .ok (.init w a b) → w = 0b11#2)
    {s : State} (hlc : s.lc = .finalized) (hin : s.inbox = ts.map .port) :
    ∃ t, run ts.length s = .next t ∧
      t = { s with err := t.err, sticky := t.sticky, inbox := t.inbox, reads := t.reads } := by
  induction ts generalizing s with
  | nil => exact ⟨s, rfl, rfl⟩
  | cons tr ts ih =>
    obtain ⟨hfirst, hrest⟩ := List.forall_mem_cons.mp hno
    obtain ⟨t, hstep, ht⟩ := step_finalized hlc hin hfirst
    obtain ⟨u, hrun, hu⟩ := ih hrest (s := t) (by rw [ht]; exact hlc) (by rw [ht])
    refine ⟨u, (run_succ hstep _).trans hrun, ?_⟩
    rw [ht] at hu
    exact hu

/-- Settles O35: by induction on the transactions, none of which writes the digest, `len` or `lc`. -/
theorem oneFinalPerInit : Obligations.OneFinalPerInit := by
  unfold Obligations.OneFinalPerInit
  intro s hlc
  have hne : s.lc ≠ .active := by simp [hlc]
  refine ⟨fun ts hno => ?_, fun nb a b h8 => exec_update_inactive h8 hne a b, fun a b => exec_final_inactive hne a b⟩
  obtain ⟨t, hrun, ht⟩ := run_finalized (s := sending ts s) hno hlc rfl
  refine ⟨t, ?_, ?_⟩
  · rw [runAll, sending_inbox, List.length_map, hrun]
  · rw [ht]
    exact ⟨hlc, rfl, rfl, rfl, rfl⟩

/-! ## The length -/

theorem exec_len_le {i : Instr} {s t : State} (h : exec i s = .next t)
    (hinit : ∀ w a b, i = .init w a b → w = 0b11#2) : s.len.toNat ≤ t.len.toNat := by
  obtain ht | ⟨-, bs, hroom, rfl⟩ | ⟨-, rfl⟩ := exec_cases_of_no_init h hinit
  · rw [ht]
  · rw [complete_len, appendBytes_len_toNat hroom]
    omega
  · rfl

/-- Settles O36: only INIT and reset make `len` smaller, so 192 bytes stay reached. -/
theorem fillingLongIsKept : Obligations.FillingLongIsKept := by
  unfold Obligations.FillingLongIsKept
  intro s t hreset hinit h
  have hle : s.len.toNat ≤ t.len.toNat := by
    obtain ⟨-, hx⟩ | ⟨x, rest, hin, -⟩ | ⟨_, _, _, -, -, hx⟩ | ⟨tr, rest, i, hin, hd, hx⟩ := step_cases s
    · cases hx.symm.trans h
      rfl
    · exact absurd hin (hreset x rest)
    · cases hx.symm.trans h
      rfl
    · exact exec_len_le (s := takeEvent rest s) (hx.symm.trans h) fun w a b hi => hinit tr rest w a b hin (hi ▸ hd)
  exact ⟨hle, fun h192 => h192.trans hle⟩

end Sys2Proof.Machine
end

section
/-! The DigestFormatter (42_digest_formatter.md R181 to R185) and the host's SeedCodec (R189): what each form of a seed or a
digest is as a number or a byte string. -/

namespace Sys2Proof.Machine

/-! ## The low half of a word -/

theorem low32_eq_ofNat (v : Word) : low32 v = BitVec.ofNat 64 (v.toNat % 2 ^ 32) := by
  apply BitVec.eq_of_toNat_eq
  simp only [low32, BitVec.toNat_setWidth, BitVec.toNat_ofNat]

theorem low32_eq_self_iff (v : Word) : low32 v = v ↔ v.toNat < 2 ^ 32 := by
  constructor
  · intro h
    rw [← h]
    exact low32_lt v
  · intro h
    rw [low32_eq_ofNat, Nat.mod_eq_of_lt h, BitVec.ofNat_toNat, BitVec.setWidth_eq]

/-! ## Seeds and outputs by width -/

/-- At width 32 the two values of `H32_SEED_MODE` agree exactly when the seed has no high half. -/
theorem seedSelect_modes_agree_iff (a b : Word) :
    seedSelect .full64 .w32 a b = seedSelect .low32 .w32 a b ↔ a.toNat < 2 ^ 32 :=
  calc seedSelect .full64 .w32 a b = seedSelect .low32 .w32 a b
      _ ↔ a = low32 a := by simp only [seedSelect, Prod.mk.injEq, and_self]
      _ ↔ low32 a = a := eq_comm
      _ ↔ a.toNat < 2 ^ 32 := low32_eq_self_iff a

/-- Settles O17: the cases of SeedSelect, with the low half as a number. -/
theorem seedSelectByWidth : Obligations.SeedSelectByWidth := by
  unfold Obligations.SeedSelectByWidth
  intro mode a b
  refine ⟨rfl, rfl, rfl, ?low32, seedSelect_modes_agree_iff a b⟩
  rw [← low32_eq_ofNat]
  rfl

/-- Settles O51: the cases of Format, with the low half as a number. -/
theorem formatByWidth : Obligations.FormatByWidth := by
  unfold Obligations.FormatByWidth
  intro x1 x2
  refine ⟨rfl, rfl, ?w32⟩
  rw [← low32_eq_ofNat]
  rfl

/-! ## The digest as bytes -/

theorem le64Bytes_getElem? (w : Word) {j : Nat} (hj : j < 8) :
    (le64Bytes w)[j]? = some (w.extractLsb' (8 * j) 8) := by
  rw [le64Bytes, List.getElem?_map, List.getElem?_range hj, Option.map_some]

theorem digestLength_le (w : Width) : digestLength w ≤ 16 := by cases w <;> decide

/-- Within its length the digest string is the bytes of `dig0`, then those of `dig1`. -/
theorem digestBytes_getElem? (s : State) {j : Nat} (hj : j < digestLength s.wsel) :
    (digestBytes s)[j]? = (le64Bytes s.dig0 ++ le64Bytes s.dig1)[j]? := List.getElem?_take_of_lt hj

/-- Settles O52: the bytes of the two words one after the other, of which the width takes a prefix. -/
theorem digestBytesAreLittleEndian : Obligations.DigestBytesAreLittleEndian := by
  unfold Obligations.DigestBytesAreLittleEndian
  intro s
  have h16 : digestLength s.wsel ≤ 16 := digestLength_le s.wsel
  refine ⟨?length, fun j h8 hj => ?first, fun j h8 hj => ?second, rfl, rfl, rfl⟩
  case length => simpa [digestBytes] using h16
  case first =>
    rw [digestBytes_getElem? s hj, List.getElem?_append_left (by simpa using h8), le64Bytes_getElem? _ h8]
  case second =>
    rw [digestBytes_getElem? s hj, List.getElem?_append_right (by simpa using h8), le64Bytes_length,
      le64Bytes_getElem? _ (by omega)]

/-! ## The host's seeds -/

theorem seedCodec_integer {k : Nat} (hk : k ≤ 2 ^ 64 - 1) : seedCodec (.integer k) = .ok (BitVec.ofNat 64 k) := by
  have hrange : (0 : Int) ≤ k ∧ (k : Int) ≤ 2 ^ 64 - 1 := by omega
  rw [seedCodec, if_pos hrange, BitVec.ofInt_natCast]

theorem seedCodec_integer_out_of_range {k : Int} (hk : k < 0 ∨ 2 ^ 64 - 1 < k) :
    seedCodec (.integer k) = .error .invalidSeedEncoding :=
  if_neg fun hrange => hk.elim (not_lt.mpr hrange.1) (not_lt.mpr hrange.2)

theorem seedCodec_buffer {b : List Byte} (hb : b.length = 8) : seedCodec (.buffer b) = .ok (le64 b) := if_pos hb

/-- Settles O55: each form of a seed, and the eight bytes of a word read back as the word. -/
theorem seedCodecContract : Obligations.SeedCodecContract := by
  unfold Obligations.SeedCodecContract
  refine ⟨rfl, fun k hk => ⟨seedCodec_integer hk, ?buffer⟩, fun k hk => seedCodec_integer_out_of_range hk,
    fun b hb => seedCodec_buffer hb, fun b hb => if_neg hb⟩
  rw [seedCodec_integer hk, seedCodec_buffer (le64Bytes_length _), le64_le64Bytes]

end Sys2Proof.Machine
end

section
/-! Whole hashes at the narrow widths (42_digest_formatter.md R186 to R188): the lines `hash.64` and `hash.32` assemble to one
INIT, beats and FINAL, and that sequence publishes `Hash128` at the effective seed. -/

namespace Sys2Proof.Machine

/-! ## The line `hash.W` -/

theorem byteFields_eq_some {ns : List Nat} (h : ∀ n ∈ ns, n < 256) : byteFields ns = some (ns.map (BitVec.ofNat 8)) := by
  induction ns with
  | nil => rfl
  | cons n ns ih =>
    obtain ⟨hn, hns⟩ := List.forall_mem_cons.mp h
    rw [byteFields, List.mapM_cons, fieldOf_eq_some hn, ← byteFields, ih hns]
    rfl

theorem assembleInit_narrow {w : Width} (hw : w ≠ .w128) {k : Nat} (hk : k < 2 ^ 64) :
    assembleInit w (some k) none = some (encode (.init (widthField w) (BitVec.ofNat 64 k) 0#64)) := by
  cases w with
  | w32 | w64 =>
    rw [assembleInit, seedField_eq_some hk]
    rfl
  | w128 => exact absurd rfl hw

/-- `hash.W s, M` at a narrow width is the sequence a host sends for `M`, in beats of 0 to 8 bytes. -/
theorem assemble_hash_narrow {w : Width} (hw : w ≠ .w128) {k : Nat} (hk : k < 2 ^ 64) {bytes : List Nat}
    (hbytes : ∀ x ∈ bytes, x < 256) :
    ∃ beats : List Beat,
      assemble (.hash w (some k) none bytes) =
        some (hashSequence (widthField w) (BitVec.ofNat 64 k) 0#64 beats) ∧
      beatsMessage beats = bytes.map (BitVec.ofNat 8) ∧ ∀ x ∈ beats, x.1.toNat ≤ 8 := by
  obtain ⟨beats, hexpand, -, hmessage, -, hbeats⟩ := updateBytesExpansion (bytes.map (BitVec.ofNat 8))
  refine ⟨beats, ?_, hmessage, fun x hx => (hbeats x hx).2.1⟩
  rw [assemble, assembleInit_narrow hw hk, byteFields_eq_some hbytes, hashSequence, ← hexpand]
  rfl

theorem widthOf_widthField (w : Width) : widthOf (widthField w) = some w := by cases w <;> rfl

/-- One-shot hashing at a narrow width, from any state: the digest is `Hash128` at the effective seeds, in the width's form. -/
theorem oneShot_narrow {w : Width} (hw : w ≠ .w128) (s : State) {k : Nat} (hk : k < 2 ^ 64) {bytes : List Nat}
    (hbytes : ∀ x ∈ bytes, x < 256) (hlen : bytes.length ≤ 2 ^ 64 - 1) {e1 e2 : Word}
    (hseed : seedSelect Config.h32SeedMode w (BitVec.ofNat 64 k) 0#64 = (e1, e2)) :
    ∃ ts t, assemble (.hash w (some k) none bytes) = some ts ∧ runAll (sending ts s) = .next t ∧
      (t.dig0, t.dig1) = formatDigest w (hash128 (bytes.map (BitVec.ofNat 8)) e1 e2) ∧
      t.err = .ok ∧ t.dvalid = true := by
  obtain ⟨beats, hassemble, hmessage, h8⟩ := assemble_hash_narrow hw hk hbytes
  have hroom : (beatsMessage beats).length ≤ 2 ^ 64 - 1 := by rwa [hmessage, List.length_map]
  obtain ⟨t, hrun, hdigest, -, hvalid, -, herr, -, -⟩ :=
    runAll_hashSequence_publishes (widthOf_widthField w) (BitVec.ofNat 64 k) 0#64 h8 hroom s
  rw [hseed, hmessage] at hdigest
  exact ⟨_, t, hassemble, hrun, hdigest, herr, hvalid⟩

/-- Settles O28: width 64 takes the seed twice and publishes the first word. -/
theorem oneShot64 : Obligations.OneShot64 := by
  unfold Obligations.OneShot64
  intro s k bytes hk hbytes hlen
  obtain ⟨ts, t, hassemble, hrun, hdigest, herr, hvalid⟩ :=
    oneShot_narrow (w := .w64) (by decide) s hk hbytes hlen rfl
  obtain ⟨hdig0, hdig1⟩ := Prod.mk.inj hdigest
  exact ⟨ts, t, hassemble, hrun, hdig0, hdig1, herr, hvalid⟩

/-- Settles O29: width 32 takes the seed of its mode twice and publishes the low half of the first word. -/
theorem oneShot32 : Obligations.OneShot32 := by
  unfold Obligations.OneShot32
  intro s k bytes hk hbytes hlen seed
  have hseed : seedSelect Config.h32SeedMode .w32 (BitVec.ofNat 64 k) 0#64 = (seed, seed) := by
    have hlow : low32 (BitVec.ofNat 64 k) = BitVec.ofNat 64 (k % 2 ^ 32) := by
      rw [low32_eq_ofNat, BitVec.toNat_ofNat, Nat.mod_eq_of_lt hk]
    cases hmode : Config.h32SeedMode with
    | full64 => simp only [seed, hmode, seedSelect]
    | low32 => simp only [seed, hmode, seedSelect, hlow]
  obtain ⟨ts, t, hassemble, hrun, hdigest, herr, hvalid⟩ := oneShot_narrow (by decide) s hk hbytes hlen hseed
  obtain ⟨hdig0, hdig1⟩ := Prod.mk.inj hdigest
  exact ⟨ts, t, hassemble, hrun, hdig0.trans (low32_eq_ofNat _), hdig1, herr, hvalid⟩

/-! ## Width 128 beside width 64 -/

/-- Settles O30: each width's run publishes the first word at its own effective seeds; on "abc" at `(1, 0)` they are evaluated. -/
theorem widthAsymmetry : Obligations.WidthAsymmetry := by
  unfold Obligations.WidthAsymmetry
  refine ⟨fun s s1 s2 beats h8 hroom => ?runs, by decide +kernel⟩
  obtain ⟨t, hrun128, hdigest128, -⟩ := runAll_hashSequence_publishes (w := 0b10#2) rfl s1 s2 h8 hroom s
  obtain ⟨u, hrun64, hdigest64, -⟩ := runAll_hashSequence_publishes (w := 0b01#2) rfl s1 0#64 h8 hroom s
  have hdig128 : t.dig0 = (hash128 (beatsMessage beats) s1 s2).1 := congrArg Prod.fst hdigest128
  have hdig64 : u.dig0 = (hash128 (beatsMessage beats) s1 s1).1 := congrArg Prod.fst hdigest64
  refine ⟨t, u, hrun128, hrun64, hdig128, hdig64, fun hsame => ?_⟩
  rw [hdig128, hdig64, hsame]

end Sys2Proof.Machine
end

section
/-! Idle and endless (60_exceptions.md R200, R216, 70_reset_and_hazards.md R240): a step with no event waiting writes nothing, and
no run stops. -/

namespace Sys2Proof.Machine

/-- Settles O13: the empty sequence is the step's first case. -/
theorem idleKeepsAllState : Obligations.IdleKeepsAllState := by
  unfold Obligations.IdleKeepsAllState
  intro s hin
  simp only [step, hin]

/-- Settles O14: by induction on the number of steps, each of which answers a next state. -/
theorem runsNeverStop : Obligations.RunsNeverStop := by
  unfold Obligations.RunsNeverStop
  intro k
  induction k with
  | zero => exact fun s => ⟨s, rfl⟩
  | succ k ih =>
    intro s
    obtain ⟨t, ht⟩ := step_next s
    rw [run_succ ht]
    exact ih t

end Sys2Proof.Machine
end

section
/-! The one code a command reports (60_exceptions.md R203 to R206): the arithmetic of `firstError` on each command's word agrees
with the checks of its meaning, so a command either raises that code or completes. -/

namespace Sys2Proof.Machine

/-! ## The fields of each command's word -/

@[simp] theorem opNumber_commandWord_init (w : BitVec 2) (a b : Word) : opNumber (commandWord (.init w a b)) = 1 := by
  rw [opNumber, commandWord_init_toNat]
  omega

@[simp] theorem widthBits_commandWord_init (w : BitVec 2) (a b : Word) :
    widthBits (commandWord (.init w a b)) = w.toNat := by
  rw [widthBits, commandWord_init_toNat]
  omega

@[simp] theorem opNumber_commandWord_update (nb : BitVec 4) (a b : Word) :
    opNumber (commandWord (.update nb a b)) = 2 := by
  rw [opNumber, commandWord_update_toNat]
  omega

@[simp] theorem countNumber_commandWord_update (nb : BitVec 4) (a b : Word) :
    countNumber (commandWord (.update nb a b)) = nb.toNat := by
  rw [countNumber, commandWord_update_toNat]
  omega

/-- A word the decoder accepts is not illegal. -/
theorem not_illegalWord_of_decode {cmd : BitVec 32} {a b : Word} {i : Instr} (hd : decode (.command cmd a b) = .ok i) :
    ¬ illegalWord cmd := by
  intro hill
  obtain ⟨e, he⟩ := (illegalWord_iff_decode_error cmd a b).mp hill
  cases hd.symm.trans he

/-! ## The code of each command's word -/

theorem firstError_of_illegalWord {cmd : BitVec 32} (h : illegalWord cmd) (s : State) :
    firstError cmd s = .illegalCommand := if_pos h

theorem firstError_nop (a b : Word) (s : State) : firstError (commandWord (.nop a b)) s = .ok := by
  have hlegal := not_illegalWord_of_decode (decode_encode (i := .nop a b) rfl)
  have hop : opNumber (commandWord (.nop a b)) = 0 := rfl
  rw [firstError, if_neg hlegal, hop]
  simp

theorem firstError_init (w : BitVec 2) (a b : Word) (s : State) :
    firstError (commandWord (.init w a b)) s = if w = 0b11#2 then .invalidWidth else .ok := by
  have hlegal := not_illegalWord_of_decode (decode_encode (i := .init w a b) rfl)
  rw [firstError, if_neg hlegal]
  simp [bitVec_eq_ofNat_iff w 3 (by decide)]

theorem firstError_update {nb : BitVec 4} (h8 : nb.toNat ≤ 8) (a b : Word) (s : State) :
    firstError (commandWord (.update nb a b)) s =
      if s.lc ≠ .active then .invalidLifecycleUse
      else if 2 ^ 64 - 1 < s.len.toNat + nb.toNat then .lengthOverflow
      else .ok := by
  have hlegal := not_illegalWord_of_decode (decode_encode_update h8 a b)
  rw [firstError, if_neg hlegal]
  simp

theorem firstError_final (a b : Word) (s : State) :
    firstError (commandWord (.final a b)) s = if s.lc ≠ .active then .invalidLifecycleUse else .ok := by
  have hlegal := not_illegalWord_of_decode (decode_encode (i := .final a b) rfl)
  have hop : opNumber (commandWord (.final a b)) = 3 := rfl
  rw [firstError, if_neg hlegal, hop]
  simp

/-! ## Raise or complete -/

/-- What a command may answer for a code: the code's `raise` and nothing else, or completion with `sticky` as before. -/
def Reports (e : ErrCode) (s : State) (o : Host.Outcome State Fault Refusal) : Prop :=
  (e ≠ .ok ∧ o = .next (raiseError e s)) ∨ (e = .ok ∧ ∃ t, t.sticky = s.sticky ∧ o = .next (complete t))

/-- The checks of each meaning (R140 step 2) are the order of R205. -/
theorem exec_reports {i : Instr} {cmd : BitVec 32} {a b : Word} (hwf : i.wellFormed = true)
    (henc : encode i = .command cmd a b) (s : State) : Reports (firstError cmd s) s (exec i s) := by
  obtain ⟨_, _, rfl, hx⟩ | ⟨w, width, a, b, rfl, hw, hx⟩ | ⟨a, b, rfl, hx⟩ | ⟨nb, _, _, rfl, h8, hx⟩ |
    ⟨nb, a, b, rfl, h8, hlc, hx⟩ | ⟨nb, a, b, rfl, h8, hlc, hfull, hx⟩ | ⟨nb, a, b, rfl, h8, hlc, hroom, hx⟩ |
    ⟨a, b, rfl, hlc, hx⟩ | ⟨a, b, rfl, hlc, hx⟩ | ⟨sel, rfl, hx⟩ := exec_cases i s <;> cases henc <;> rw [hx]
  · exact .inr ⟨firstError_nop _ _ s, s, rfl, rfl⟩
  · have hne : w ≠ 0b11#2 := fun h => by simp [(widthOf_eq_none_iff w).mpr h] at hw
    exact .inr ⟨by rw [firstError_init, if_neg hne], _, startHash_sticky .., rfl⟩
  · rw [firstError_init, if_pos rfl]
    exact .inl ⟨by decide, rfl⟩
  · exact absurd (of_decide_eq_true hwf) (Nat.not_le.mpr h8)
  · rw [firstError_update h8, if_pos hlc]
    exact .inl ⟨by decide, rfl⟩
  · rw [firstError_update h8, if_neg (not_not_intro hlc), if_pos hfull]
    exact .inl ⟨by decide, rfl⟩
  · rw [firstError_update h8, if_neg (not_not_intro hlc), if_neg (Nat.not_lt.mpr hroom)]
    exact .inr ⟨rfl, _, appendBytes_sticky .., rfl⟩
  · rw [firstError_final, if_pos hlc]
    exact .inl ⟨by decide, rfl⟩
  · rw [firstError_final, if_neg (not_not_intro hlc)]
    exact .inr ⟨rfl, _, publishDigest_sticky .., rfl⟩

/-- A command at the front of the sequence is taken from it and reports its one code, illegal words included. -/
theorem step_command_reports {s : State} {cmd : BitVec 32} {a b : Word} {rest : List HostEvent}
    (hin : s.inbox = .port (.command cmd a b) :: rest) : Reports (firstError cmd s) (takeEvent rest s) (step s) := by
  cases hd : decode (.command cmd a b) with
  | error e =>
    rw [firstError_of_illegalWord ((illegalWord_iff_decode_error cmd a b).mpr ⟨e, hd⟩), step_port_refused hin hd]
    exact .inl ⟨by decide, rfl⟩
  | ok i =>
    obtain ⟨hwf, henc⟩ := encode_of_decode hd
    rw [step_port hin hd]
    exact exec_reports hwf henc (takeEvent rest s)

/-- Settles O31: both outcomes leave the reported code in `err`. -/
theorem commandsReportTheFirstError : Obligations.CommandsReportTheFirstError := by
  unfold Obligations.CommandsReportTheFirstError
  intro s cmd a b rest hin
  obtain ⟨-, hx⟩ | ⟨hok, t, -, hx⟩ := step_command_reports hin
  · exact ⟨_, hx, rfl⟩
  · exact ⟨_, hx, hok.symm⟩

/-- Settles O32: a command that completes leaves `err` at 0, so a failed one has raised its code and done nothing else. -/
theorem failedCommandsHaveNoPartialEffect : Obligations.FailedCommandsHaveNoPartialEffect := by
  unfold Obligations.FailedCommandsHaveNoPartialEffect
  intro s t cmd a b rest hin hstep herr
  obtain ⟨-, hx⟩ | ⟨-, u, -, hx⟩ := step_command_reports hin <;> cases hx.symm.trans hstep
  · rfl
  · exact absurd (complete_err u) herr

/-- Settles O33: a command whose code is 0 has raised nothing, so it has completed. -/
theorem successLeavesSticky : Obligations.SuccessLeavesSticky := by
  unfold Obligations.SuccessLeavesSticky
  intro s cmd a b rest hin hok
  obtain ⟨hne, -⟩ | ⟨-, t, hsticky, hx⟩ := step_command_reports hin
  · exact absurd hok hne
  · exact ⟨_, hx, complete_err t, hsticky⟩

end Sys2Proof.Machine
end

section
/-! Reset (70_reset_and_hazards.md R230, R231, R234) and the one flag that only reset clears (60_exceptions.md R217). -/

namespace Sys2Proof.Machine

/-! ## The reset state as the host reads it -/

theorem status_reset : status State.reset = 0x10#64 := by decide

/-- Settles O1: the read port returns the registers, and STATUS holds `wsel = 10` alone. -/
theorem readsRightAfterReset : Obligations.ReadsRightAfterReset := by
  unfold Obligations.ReadsRightAfterReset
  obtain ⟨hstatus, hlen, hdig0, hdig1, -⟩ := readPortMap State.reset
  rw [status_reset] at hstatus
  exact ⟨hstatus, hlen, hdig0, hdig1, rfl, rfl, rfl, rfl, rfl⟩

/-! ## `sticky` along a step -/

/-- A command sets `sticky` or leaves it, whatever it reports. -/
theorem Reports.sticky {e : ErrCode} {s t : State} (h : Reports e s (.next t)) (hs : s.sticky = true) :
    t.sticky = true := by
  obtain ⟨-, hx⟩ | ⟨-, u, hu, hx⟩ := h <;> cases hx
  · exact raiseError_sticky e s
  · exact hu.trans hs

/-- No step but a reset clears `sticky`: an idle step writes nothing, a command raises or completes, a read writes only
the returned values. -/
theorem step_keeps_sticky {s t : State} (hno : ∀ x rest, s.inbox ≠ .reset x :: rest) (hs : s.sticky = true)
    (h : step s = .next t) : t.sticky = true := by
  match hin : s.inbox with
  | [] =>
    rw [idleKeepsAllState s hin] at h
    cases h
    exact hs
  | .reset x :: rest => exact absurd hin (hno x rest)
  | .port (.command cmd a b) :: rest =>
    have hreports := step_command_reports hin
    rw [h] at hreports
    exact hreports.sticky hs
  | .port (.read sel) :: rest =>
    rw [step_port hin (i := .rd sel) rfl] at h
    cases h
    exact hs

/-- Settles O2: the reset step is one equation on the whole state, and `step_keeps_sticky` is its other clause. -/
theorem resetAbandonsAndOnlyResetClearsSticky : Obligations.ResetAbandonsAndOnlyResetClearsSticky := by
  unfold Obligations.ResetAbandonsAndOnlyResetClearsSticky
  exact ⟨fun _ _ _ hin => ⟨_, step_reset hin, rfl⟩, fun _ _ => step_keeps_sticky⟩

end Sys2Proof.Machine
end
